-- ==== Sys2Proof/Word.lean ====
section
/-! DEFINITION. The machine word and the field types of an instruction word (00_scope.md rule R9, 30_encoding.md rule R51). -/

namespace Sys2Proof

/-- A 16-bit pattern: a register value, a memory cell or an instruction word (rules R9, R11, R24, R50). -/
abbrev Word := BitVec 16

/-- A register index: a 3-bit field, so every index an instruction can name exists (rule R10). -/
abbrev Reg := BitVec 3

/-- The raw, unsigned 6-bit immediate `immI` of the I format (rules R51, R56). -/
abbrev Imm6 := BitVec 6

/-- The raw, unsigned 12-bit immediate `immJ` of the J format (rules R51, R56). -/
abbrev Imm12 := BitVec 12

theorem Reg.toNat_lt_eight (r : Reg) : r.toNat < 8 := r.isLt

end Sys2Proof
end

