-- ==== Sys2Proof/Machine/Flags.lean ====
section
/-! DEFINITION. The hardware has no status flags, no condition codes and no flag side effect (10_state.md rule R17); what decides a
conditional branch is one of the two conditions below on the two registers it compares. -/

namespace Sys2Proof.Machine

/-- The condition of `beq`: equality of the two 16-bit patterns (44_branches.md rule R126). -/
def condEqual (a b : Word) : Bool := a == b

/-- The condition of `bne` (rule R127). -/
def condNotEqual (a b : Word) : Bool := a != b

end Sys2Proof.Machine
end

