-- ==== Sys2Proof/Syntax.lean ====
section
/-! DEFINITION. The instructions: one constructor per row of spec/opcode_table.json (30_encoding.md rules R58, R59), each with every
field its format has (rule R52), so that an instruction determines its word. Immediates are the raw bits of the field; the
consumer extends them (rule R56). -/

namespace Sys2Proof

/-- The 19 mnemonics of 30_encoding.md section 7, in the order of rule R64. -/
inductive Mnemonic where
  | add | sub | slt | mul | div | sllr | srlr
  | addi | li | lui | lw | sw | beq | bne | sll | srl | sra
  | jmp | jal
  deriving DecidableEq, Repr

/-- An instruction with its fields in the order of its format (rules R51, R52). `li` and `lui` carry the register field `rs` of
their format too: the hardware ignores it (rule R62), but the word holds it. -/
inductive Instr where
  /-- `add $rd, $rs, $rt`, rule R101. -/
  | add (rd rs rt : Reg)
  /-- `sub $rd, $rs, $rt`, rule R102. -/
  | sub (rd rs rt : Reg)
  /-- `slt $rd, $rs, $rt`, rule R103. -/
  | slt (rd rs rt : Reg)
  /-- `mul $rd, $rs, $rt`, rule R104. -/
  | mul (rd rs rt : Reg)
  /-- `div $rd, $rs, $rt`, rule R105. -/
  | div (rd rs rt : Reg)
  /-- `sllr $rd, $rs, $rt`, rule R106. -/
  | sllr (rd rs rt : Reg)
  /-- `srlr $rd, $rs, $rt`, rule R107. -/
  | srlr (rd rs rt : Reg)
  /-- `addi $rd, $rs, imm`, rule R111. -/
  | addi (rd rs : Reg) (imm : Imm6)
  /-- `li $rd, imm`, rule R112; `rs` is ignored (rule R62). -/
  | li (rd rs : Reg) (imm : Imm6)
  /-- `lui $rd, imm`, rule R113; `rs` is ignored (rule R62). -/
  | lui (rd rs : Reg) (imm : Imm6)
  /-- `lw $rd, $rs, imm`, rule R121. -/
  | lw (rd rs : Reg) (imm : Imm6)
  /-- `sw $rd, $rs, imm`, rule R122. -/
  | sw (rd rs : Reg) (imm : Imm6)
  /-- `beq $rd, $rs, label`, rule R126. -/
  | beq (rd rs : Reg) (imm : Imm6)
  /-- `bne $rd, $rs, label`, rule R127. -/
  | bne (rd rs : Reg) (imm : Imm6)
  /-- `sll $rd, $rs, imm`, rule R114. -/
  | sll (rd rs : Reg) (imm : Imm6)
  /-- `srl $rd, $rs, imm`, rule R115. -/
  | srl (rd rs : Reg) (imm : Imm6)
  /-- `sra $rd, $rs, imm`, rule R116. -/
  | sra (rd rs : Reg) (imm : Imm6)
  /-- `jmp label`, rule R130. -/
  | jmp (imm : Imm12)
  /-- `jal label`, rule R131. -/
  | jal (imm : Imm12)
  deriving DecidableEq, Repr

/-- The mnemonic of an instruction. -/
def Instr.mnemonic : Instr → Mnemonic
  | .add _ _ _ => .add
  | .sub _ _ _ => .sub
  | .slt _ _ _ => .slt
  | .mul _ _ _ => .mul
  | .div _ _ _ => .div
  | .sllr _ _ _ => .sllr
  | .srlr _ _ _ => .srlr
  | .addi _ _ _ => .addi
  | .li _ _ _ => .li
  | .lui _ _ _ => .lui
  | .lw _ _ _ => .lw
  | .sw _ _ _ => .sw
  | .beq _ _ _ => .beq
  | .bne _ _ _ => .bne
  | .sll _ _ _ => .sll
  | .srl _ _ _ => .srl
  | .sra _ _ _ => .sra
  | .jmp _ => .jmp
  | .jal _ => .jal

end Sys2Proof
end

