-- ==== Sys2Proof/WellFormed.lean ====
section
/-! DEFINITION. Which terms of `Instr` are instructions the hardware can execute. Every field has exactly the width of its place in
the word, so the only term that is no executable instruction is the one whose word is the sentinel (30_encoding.md rule R61). -/

namespace Sys2Proof

/-- `add $r0, $r0, $r0` is the word 0x0000, which halts instead of executing (rules R61, R101). -/
def Instr.spellsSentinel : Instr → Bool
  | .add rd rs rt => rd == 0 && rs == 0 && rt == 0
  | _ => false

/-- A well-formed instruction: one the hardware can execute (rule R61). -/
def Instr.wellFormed (i : Instr) : Bool := !i.spellsSentinel

end Sys2Proof
end

