-- ==== Sys2Proof/Decode.lean ====
section
/-! DEFINITION. The Instruction Codec and the opcode map (30_encoding.md rules R50 to R64): the field-level `encode` and `decode` of
the spec, the opcode and function-code tables, `classify`, and the encoder of an instruction. -/

namespace Sys2Proof

/-! ## The Codec: fields and words -/

/-- The format selector of `encode` (rules R51, R53). -/
inductive Format where
  | R | I | J
  deriving DecidableEq, Repr

/-- The inputs of the spec's `encode`: integer field values of any size and sign (rule R53). -/
structure Fields where
  opcode : Int
  rd : Int
  rs : Int
  rt : Int
  func : Int
  imm : Int
  deriving DecidableEq, Repr

/-- The outputs of the spec's `decode`: all seven members, whatever the format (rule R55). -/
structure Decoded where
  opcode : BitVec 4
  rd : Reg
  rs : Reg
  rt : Reg
  func : BitVec 3
  immI : Imm6
  immJ : Imm12
  deriving DecidableEq, Repr

/-- The R layout `oooo ddd sss ttt fff` (rule R52). -/
def rWord (opcode : BitVec 4) (rd rs rt : Reg) (func : BitVec 3) : Word :=
  opcode ++ rd ++ rs ++ rt ++ func

/-- The I layout `oooo ddd sss iiiiii` (rule R52). -/
def iWord (opcode : BitVec 4) (rd rs : Reg) (imm : Imm6) : Word :=
  opcode ++ rd ++ rs ++ imm

/-- The J layout `oooo iiiiiiiiiiii` (rule R52). -/
def jWord (opcode : BitVec 4) (imm : Imm12) : Word :=
  opcode ++ imm

/-- The low `n` bits of an integer in two's complement, `v[n-1:0]` (rule R8): the silent truncation of rule R54. -/
def fieldBits (n : Nat) (v : Int) : BitVec n := BitVec.ofInt n v

/-- The spec's `encode`: each field is masked to its width; a field the format does not have is ignored (rules R53, R54). -/
def encodeFields : Format → Fields → Word
  | .R, f => rWord (fieldBits 4 f.opcode) (fieldBits 3 f.rd) (fieldBits 3 f.rs) (fieldBits 3 f.rt) (fieldBits 3 f.func)
  | .I, f => iWord (fieldBits 4 f.opcode) (fieldBits 3 f.rd) (fieldBits 3 f.rs) (fieldBits 6 f.imm)
  | .J, f => jWord (fieldBits 4 f.opcode) (fieldBits 12 f.imm)

/-- The spec's `decode`, total on all words; the members overlap (rule R55). -/
def decodeFields (w : Word) : Decoded where
  opcode := w.extractLsb' 12 4
  rd := w.extractLsb' 9 3
  rs := w.extractLsb' 6 3
  rt := w.extractLsb' 3 3
  func := w.extractLsb' 0 3
  immI := w.extractLsb' 0 6
  immJ := w.extractLsb' 0 12

/-! ## The opcode map -/

/-- The format of a mnemonic (rules R58, R59). -/
def formatOf : Mnemonic → Format
  | .add | .sub | .slt | .mul | .div | .sllr | .srlr => .R
  | .addi | .li | .lui | .lw | .sw | .beq | .bne | .sll | .srl | .sra => .I
  | .jmp | .jal => .J

/-- `OPC(m)`, the table of rule R58 (the numbers 1 to 12 are the spec's decision D5, log entry 5). -/
def opcodeOf : Mnemonic → BitVec 4
  | .add | .sub | .slt | .mul | .div | .sllr | .srlr => 0
  | .addi => 1
  | .li => 2
  | .lui => 3
  | .lw => 4
  | .sw => 5
  | .beq => 6
  | .bne => 7
  | .sll => 8
  | .srl => 9
  | .sra => 10
  | .jmp => 11
  | .jal => 12

/-- `FUNC(m)`, the table of rule R59 (decision D6, log entry 5); the other formats have no function code. -/
def functionOf : Mnemonic → Option (BitVec 3)
  | .add => some 0
  | .sub => some 1
  | .slt => some 2
  | .mul => some 3
  | .div => some 4
  | .sllr => some 5
  | .srlr => some 6
  | _ => none

/-- The rows of the opcode map in the order rule R64 tries them. -/
def allMnemonics : List Mnemonic :=
  [.add, .sub, .slt, .mul, .div, .sllr, .srlr, .addi, .li, .lui, .lw, .sw, .beq, .bne, .sll, .srl, .sra, .jmp, .jal]

/-- A row matches an opcode and a function code when its opcode is that opcode and its function code, where the row has one, is
that function code: the `mask`/`match` pairs of rule R64. -/
def rowMatches (opcode : BitVec 4) (func : BitVec 3) (m : Mnemonic) : Bool :=
  opcodeOf m == opcode &&
    match functionOf m with
    | some f => f == func
    | none => true

/-- The mnemonic that an opcode and a function code select, if any (rules R58, R59, R64). -/
def mnemonicAt (opcode : BitVec 4) (func : BitVec 3) : Option Mnemonic :=
  allMnemonics.find? (rowMatches opcode func)

/-- The instruction of a mnemonic with the fields of a decoded word that its format has (rules R52, R55). -/
def Instr.ofFields (d : Decoded) : Mnemonic → Instr
  | .add => .add d.rd d.rs d.rt
  | .sub => .sub d.rd d.rs d.rt
  | .slt => .slt d.rd d.rs d.rt
  | .mul => .mul d.rd d.rs d.rt
  | .div => .div d.rd d.rs d.rt
  | .sllr => .sllr d.rd d.rs d.rt
  | .srlr => .srlr d.rd d.rs d.rt
  | .addi => .addi d.rd d.rs d.immI
  | .li => .li d.rd d.rs d.immI
  | .lui => .lui d.rd d.rs d.immI
  | .lw => .lw d.rd d.rs d.immI
  | .sw => .sw d.rd d.rs d.immI
  | .beq => .beq d.rd d.rs d.immI
  | .bne => .bne d.rd d.rs d.immI
  | .sll => .sll d.rd d.rs d.immI
  | .srl => .srl d.rd d.rs d.immI
  | .sra => .sra d.rd d.rs d.immI
  | .jmp => .jmp d.immJ
  | .jal => .jal d.immJ

/-- Why a word is reserved (rule R60). -/
inductive Reserved where
  /-- opcode 13, 14 or 15 -/
  | opcode
  /-- opcode 0 with function code 7 -/
  | function
  deriving DecidableEq, Repr

/-- What a word spells (rule R64). -/
inductive Classified where
  /-- the word 0x0000, "no instruction" (rule R36) -/
  | sentinel
  /-- an instruction -/
  | instr (i : Instr)
  /-- a reserved encoding (rule R60) -/
  | reserved (why : Reserved)
  deriving DecidableEq, Repr

/-- `classify(w)`: total on all words; the sentinel first, then the rows of the opcode map (rule R64). -/
def classify (w : Word) : Classified :=
  if w = 0 then .sentinel
  else
    match mnemonicAt (decodeFields w).opcode (decodeFields w).func with
    | some m => .instr (Instr.ofFields (decodeFields w) m)
    | none => .reserved (if (decodeFields w).opcode = 0 then .function else .opcode)

/-- The instruction a word spells, if it spells one. -/
def decodeInstr (w : Word) : Option Instr :=
  match classify w with
  | .instr i => some i
  | .sentinel => none
  | .reserved _ => none

/-- The decoder's answer for an instruction of `nbits` bits whose bits are `w`: the hardware's one instruction length is one
16-bit cell (rule R50), so bit 0 of `w` is bit 0 of the cell, and there is no later word. -/
def decodeTableWord (nbits w : Nat) : Option Instr :=
  decodeInstr (BitVec.ofNat 16 (w % 2 ^ nbits))

/-! ## The encoder -/

/-- The word of a register-format instruction (rules R53, R58, R59). -/
def encodeR (m : Mnemonic) (rd rs rt : Reg) : Word := rWord (opcodeOf m) rd rs rt ((functionOf m).getD 0)

/-- The word of an immediate-format instruction (rules R53, R58). -/
def encodeI (m : Mnemonic) (rd rs : Reg) (imm : Imm6) : Word := iWord (opcodeOf m) rd rs imm

/-- The word of a jump-format instruction (rules R53, R58). -/
def encodeJ (m : Mnemonic) (imm : Imm12) : Word := jWord (opcodeOf m) imm

/-- The word of an instruction (rules R53, R58, R59). -/
def encode : Instr → Word
  | .add rd rs rt => encodeR .add rd rs rt
  | .sub rd rs rt => encodeR .sub rd rs rt
  | .slt rd rs rt => encodeR .slt rd rs rt
  | .mul rd rs rt => encodeR .mul rd rs rt
  | .div rd rs rt => encodeR .div rd rs rt
  | .sllr rd rs rt => encodeR .sllr rd rs rt
  | .srlr rd rs rt => encodeR .srlr rd rs rt
  | .addi rd rs imm => encodeI .addi rd rs imm
  | .li rd rs imm => encodeI .li rd rs imm
  | .lui rd rs imm => encodeI .lui rd rs imm
  | .lw rd rs imm => encodeI .lw rd rs imm
  | .sw rd rs imm => encodeI .sw rd rs imm
  | .beq rd rs imm => encodeI .beq rd rs imm
  | .bne rd rs imm => encodeI .bne rd rs imm
  | .sll rd rs imm => encodeI .sll rd rs imm
  | .srl rd rs imm => encodeI .srl rd rs imm
  | .sra rd rs imm => encodeI .sra rd rs imm
  | .jmp imm => encodeJ .jmp imm
  | .jal imm => encodeJ .jal imm

end Sys2Proof
end

