-- ==== Sys2Proof/Config.lean ====
section
/-! DEFINITION. The layout the source document itself fixes (00_scope.md rule R7, the rows marked doc00): sizes that the types of the
model and the loader rest on. The parameters that the spec marks as its own decisions (D<n>) and that a test could show otherwise
are in Machine/Params.lean. The machine has no free value: every point the source leaves open is fixed by a numbered rule of the
spec (log entry 5), so this file declares no opaque constant. -/

namespace Sys2Proof

/-- `MEM_WORDS`: the number of memory cells, addresses 0 to 511 (rules R7, R24). -/
def Config.memWords : Nat := 512

/-- `CODE_BASE`: the first address of the code region (rules R7, R31). -/
def Config.codeBase : Nat := 0

/-- `CODE_WORDS`: the size of the code region, addresses 0 to 255 (rules R7, R31). -/
def Config.codeWords : Nat := 256

/-- `DATA_BASE`: the first address of the data region (rules R7, R31). -/
def Config.dataBase : Nat := 256

/-- `DATA_WORDS`: the size of the data region, addresses 256 to 511 (rules R7, R31). -/
def Config.dataWords : Nat := 256

theorem Config.memWords_eq : Config.memWords = 512 := rfl
theorem Config.codeBase_eq : Config.codeBase = 0 := rfl
theorem Config.codeWords_eq : Config.codeWords = 256 := rfl
theorem Config.dataBase_eq : Config.dataBase = 256 := rfl
theorem Config.dataWords_eq : Config.dataWords = 256 := rfl

end Sys2Proof
end

