-- ==== Sys2Proof/Machine/Params.lean ====
section
/-! DEFINITION. The parameters of 00_scope.md rule R7 that the spec fixes as its own decision, or that a test fixture could supersede,
each at the value the rule gives it (log entry 5). -/

namespace Sys2Proof.Machine

/-- `FETCH_MAX`: the highest address a fetch may read (rules R7, R34; decision D4). -/
def fetchMax : Int := 511

/-- `LINK_REG`: the register `jal` writes (rules R7, R13). -/
def linkReg : Reg := 7

/-- `LUI_SHIFT`: the left shift of `lui` (rules R7, R113; decision D16). -/
def luiShift : Nat := 10

/-- `CYC_PLAIN`: cycles of every instruction but `beq` and `bne` (rules R7, R90; decision D21). -/
def cycPlain : Nat := 1

/-- `CYC_BR_NOT_TAKEN`: cycles of a branch that is not taken (rules R7, R90; decision D21). -/
def cycBrNotTaken : Nat := 1

/-- `CYC_BR_TAKEN`: cycles of a branch that is taken (rules R7, R90). -/
def cycBrTaken : Nat := 3

/-- `CYC_MISPREDICT`: extra cycles on a misprediction (rules R7, R90; decision D21). -/
def cycMispredict : Nat := 0

/-- `STALL_MISPREDICT`: stalls added on a misprediction (rules R7, R128; decision D22). -/
def stallMispredict : Nat := 1

/-- `FLUSH_MISPREDICT`: flushes added on a misprediction (rules R7, R128; decision D22). -/
def flushMispredict : Nat := 1

/-- `N8_INIT`: the initial level of an unseen key under the 8-state strategy (rules R7, R152; decision D23). -/
def n8Init : BitVec 3 := 4

end Sys2Proof.Machine
end

