-- ==== Sys2Proof/Machine/State.lean ====
section
/-! DEFINITION. The architectural state as plain data (10_state.md rules R10 to R29), the host's outcome reasons, and the state after
reset. -/

namespace Sys2Proof.Machine

/-- The run states (10_state.md rule R18). -/
inductive RunState where
  | running | halted | timedOut | faulted
  deriving DecidableEq, Repr

/-- The prediction strategies, one per run (rules R19, R143). -/
inductive Strategy where
  | alwaysTaken | alwaysNotTaken | oneBit | twoBit | eightState
  deriving DecidableEq, Repr

/-- The five fault causes of 60_exceptions.md rule R171. They are the machine's own faults: raising one enters the run state
Faulted, which is a next state (log entry 3). -/
inductive FaultCause where
  /-- `lw`, `sw` with an effective address outside 0 to 511 (rule R172). -/
  | memAddressOutOfRange
  /-- a step whose `pc` is outside 0 to 511 (rule R173). -/
  | fetchOutOfRange
  /-- a step whose fetched word is a reserved encoding (rule R174). -/
  | illegalInstruction
  /-- `div` by 0 (rule R175). -/
  | divideByZero
  /-- a shift by a negative amount (rule R176). -/
  | negativeShiftAmount
  deriving DecidableEq, Repr

/-- `fault_info`: the out-of-range address for the two address faults, the instruction word for the other three (rule R22). -/
inductive FaultInfo where
  | address (a : Int)
  | word (w : Word)
  deriving DecidableEq, Repr

/-- The fault record, written once, by the step that enters Faulted (rule R22). -/
structure FaultRecord where
  /-- `fault_cause` -/
  cause : FaultCause
  /-- `fault_pc`: the `pc` of the faulting step -/
  pc : Int
  /-- `fault_info` -/
  info : FaultInfo
  deriving DecidableEq, Repr

/-- Memory: (address, cell) pairs, addresses strictly rising, no cell equal to 0, which is what an unlisted address reads as
(rules R24, R29; log entry 4). The smallest unit of this hardware is the 16-bit cell (20_memory.md rule R37). -/
abbrev Memory := List (Nat × Word)

/-- The Branch Predictor Table: (7-bit key, 3-bit state) pairs, keys strictly rising; an unlisted key has no valid entry
(rules R25, R26). -/
abbrev Bpt := List (Nat × BitVec 3)

/-- Why the host's step would stop with no next state. There is no such reason, and no constructor: every end of a run that the
spec describes (Halted, TimedOut, and Faulted with its record) is a run state the step enters (rules R80, R91; log entry 3). Safe:
the model never stops where the hardware goes on. -/
inductive Fault where
  deriving DecidableEq, Repr

/-- Why an instruction has no meaning in the model. -/
inductive Refusal where
  /-- Raised by an arm of `exec` whose instruction the model does not cover; no arm raises it, since all 19 instructions have
  their meaning. Safe: the model stops where the hardware goes on. -/
  | notModelled (mnemonic : String)
  deriving DecidableEq, Repr

/-- The state of the block (rules R10 to R27), and the run parameters the host supplies (rule R19). -/
structure State where
  /-- `x[0]` to `x[7]` (rules R10, R11) -/
  regs : Vector Word 8
  /-- `pc` (rules R8, R15; log entry 6) -/
  pc : Int
  /-- `mem[0..511]` (rule R24) -/
  mem : Memory
  /-- `run_state` (rule R18) -/
  runState : RunState
  /-- `fault_cause`, `fault_pc`, `fault_info`; none while no fault is recorded (rules R22, R29) -/
  fault : Option FaultRecord
  /-- `cycles` (rules R20, R21) -/
  cycles : Nat
  /-- `executed` (rules R20, R21) -/
  executed : Nat
  /-- `stalls` (rules R20, R21) -/
  stalls : Nat
  /-- `flushes` (rules R20, R21) -/
  flushes : Nat
  /-- the Branch Predictor Table (rules R25 to R27) -/
  bpt : Bpt
  /-- `BUDGET`, latched at the start of a run (rule R19) -/
  budget : Nat
  /-- `STRATEGY`, latched at the start of a run (rules R19, R143) -/
  strategy : Strategy
  /-- `STATIC_COUNT` (rules R20, R164) -/
  staticCount : Nat
  deriving DecidableEq, Repr

/-- The machine right after reset (rules R29, R190). The three run parameters are no reset values of the spec; the values here are
those of the default start state of 95_test_vectors.md (DESIGN CHOICE, log entry 1). -/
def State.reset : State where
  regs := Vector.replicate 8 0
  pc := 0
  mem := []
  runState := .running
  fault := none
  cycles := 0
  executed := 0
  stalls := 0
  flushes := 0
  bpt := []
  budget := 1000
  strategy := .twoBit
  staticCount := 0

end Sys2Proof.Machine
end

