-- ==== Sys2Proof/Machine/Memory.lean ====
section
/-! DEFINITION. Tables as sorted lists, and over them the memory array with its three primitives MemRead, MemWrite and Fetch
(20_memory.md rules R30 to R36). -/

namespace Sys2Proof.Machine

/-! ## Sorted tables, for the memory and for the Branch Predictor Table -/

/-- The value a table holds at a key, if it holds one. -/
def tableGet {α : Type} : List (Nat × α) → Nat → Option α
  | [], _ => none
  | (k, v) :: rest, a => if k = a then some v else tableGet rest a

/-- The table with one key set. -/
def tableSet {α : Type} : List (Nat × α) → Nat → α → List (Nat × α)
  | [], a, x => [(a, x)]
  | (k, v) :: rest, a, x =>
    if a < k then (a, x) :: (k, v) :: rest
    else if a = k then (a, x) :: rest
    else (k, v) :: tableSet rest a x

/-- The table without one key. -/
def tableErase {α : Type} : List (Nat × α) → Nat → List (Nat × α)
  | [], _ => []
  | (k, v) :: rest, a => if k = a then tableErase rest a else (k, v) :: tableErase rest a

/-- The keys rise strictly. -/
def tableSorted {α : Type} (t : List (Nat × α)) : Bool := decide (t.Pairwise (fun x y => x.1 < y.1))

/-! ## The memory array -/

/-- The cell at an address: 0 where no cell is listed (rules R24, R29). -/
def Memory.read (m : Memory) (a : Nat) : Word := (tableGet m a).getD 0

/-- One cell written; writing 0 unlists it, so that equal memories are equal data. -/
def Memory.write (m : Memory) (a : Nat) (v : Word) : Memory := if v = 0 then tableErase m a else tableSet m a v

/-- The canonical form: addresses strictly rising and inside the array, no cell equal to 0. -/
def Memory.wf (m : Memory) : Bool := tableSorted m && m.all (fun c => decide (c.1 < Config.memWords) && c.2 != 0)

/-- An address inside the array, 0 to 511 (rules R30, R39). -/
def inArray (addr : Int) : Bool := decide (0 ≤ addr) && decide (addr < Config.memWords)

/-- `MemRead(addr, 1)`: none is MemAddressOutOfRange; the address is not reduced before the test (rule R32). -/
def memRead (m : Memory) (addr : Int) : Option Word := if inArray addr then some (m.read addr.toNat) else none

/-- `MemWrite(addr, 1, v)`: none is MemAddressOutOfRange, and then no cell changes (rule R33). -/
def memWrite (m : Memory) (addr : Int) (v : Word) : Option Memory :=
  if inArray addr then some (m.write addr.toNat v) else none

/-- `Fetch(addr)`: none is FetchOutOfRange (rule R34; decisions D3, D4). -/
def fetch (m : Memory) (addr : Int) : Option Word :=
  if 0 ≤ addr ∧ addr ≤ fetchMax then some (m.read addr.toNat) else none

end Sys2Proof.Machine
end

