-- ==== Sys2Proof/Machine/Operands.lean ====
section
/-! DEFINITION. The conversions of 00_scope.md rule R8 and the value each operand form and each arithmetic operation gives: the exact
mathematical result, narrowed once at the end. -/

namespace Sys2Proof.Machine

/-! ## Conversions -/

/-- `s16(v)`: the signed reading of a 16-bit pattern (rule R8). -/
def s16 (v : Word) : Int := v.toInt

/-- `u16(n)`: the 16-bit pattern of an integer, wrapping (rule R8). -/
def u16 (n : Int) : Word := BitVec.ofInt 16 n

/-- `sext_6` (rules R8, R56). -/
def sext6 (v : Imm6) : Int := v.toInt

/-- `sext_12` (rules R8, R56). -/
def sext12 (v : Imm12) : Int := v.toInt

/-- `zext_6` (rule R8). -/
def zext6 (v : Imm6) : Int := v.toNat

/-! ## Arithmetic (41_register_format.md rules R101 to R105, R109) -/

/-- `u16(x[rs] + x[rt])` (rule R101). -/
def addWords (a b : Word) : Word := u16 ((a.toNat : Int) + (b.toNat : Int))

/-- `u16(x[rs] - x[rt])` (rule R102). -/
def subWords (a b : Word) : Word := u16 ((a.toNat : Int) - (b.toNat : Int))

/-- 1 when the first is below the second as signed, else 0 (rule R103). -/
def sltWords (a b : Word) : Word := if s16 a < s16 b then 1 else 0

/-- `u16(s16(x[rs]) * s16(x[rt]))` (rule R104). -/
def mulWords (a b : Word) : Word := u16 (s16 a * s16 b)

/-- `sign(a) * sign(b) * floor(|a| / |b|)`: the quotient rounded toward zero (rule R105; decision D13). -/
def quotient (a b : Int) : Int := a.sign * b.sign * ((a.natAbs / b.natAbs : Nat) : Int)

/-- The quotient of `div`, or none for a zero divisor (rule R105; decision D12). -/
def divWords (a b : Word) : Option Word := if s16 b = 0 then none else some (u16 (quotient (s16 a) (s16 b)))

/-- `u16(x[rs] + sext_6(immI))` (42_immediate_format.md rule R111). -/
def addImmediate (a : Word) (imm : Imm6) : Word := u16 ((a.toNat : Int) + sext6 imm)

/-- `u16(sext_6(immI))` (rule R112; decision D17). -/
def loadImmediate (imm : Imm6) : Word := u16 (sext6 imm)

/-- `u16(zext_6(immI) * 2^LUI_SHIFT)` (rule R113; decision D16). -/
def loadUpper (imm : Imm6) : Word := u16 (zext6 imm * (2 : Int) ^ luiShift)

/-! ## The shift functions (rule R108; decision D14): none is the fault of a negative amount -/

/-- `SHL(v, n)` (rule R108). -/
def shiftLeft (v : Word) (n : Int) : Option Word :=
  if n < 0 then none
  else if n ≤ 15 then some (u16 ((v.toNat : Int) * (2 : Int) ^ n.toNat))
  else some 0

/-- `SHR(v, n)`, `v` read as unsigned (rule R108). -/
def shiftRight (v : Word) (n : Int) : Option Word :=
  if n < 0 then none
  else if n ≤ 15 then some (u16 ((v.toNat : Int) / (2 : Int) ^ n.toNat))
  else some 0

/-- `SAR(v, n)`, `v` read as signed; the division by a power of two is the floor (rule R108). -/
def shiftArith (v : Word) (n : Int) : Option Word :=
  if n < 0 then none
  else if n ≤ 15 then some (u16 (s16 v / (2 : Int) ^ n.toNat))
  else if 0 ≤ s16 v then some 0
  else some 0xFFFF

/-! ## The addressing mode -/

/-- `ea = s16(x[rs]) + sext_6(immI)`, a mathematical integer, never wrapped (20_memory.md rule R41, 43_load_store.md rule R120). -/
def effectiveAddress (base : Word) (imm : Imm6) : Int := s16 base + sext6 imm

end Sys2Proof.Machine
end

