-- ==== Sys2Proof/Machine/Predictor.lean ====
section
/-! DEFINITION. The Branch Predictor: the key of a branch site, the five strategies, `predict` and `update`
(46_branch_predictor.md rules R140 to R153). -/

namespace Sys2Proof.Machine

/-- The two opcodes that go through the prediction path (44_branches.md rule R125). -/
inductive BranchOp where
  | beq | bne
  deriving DecidableEq, Repr

/-- The branch-site key `(op, a, b)`: the opcode and the two compared registers in operand order (rule R141; decision D19). -/
structure BranchKey where
  op : BranchOp
  a : Reg
  b : Reg
  deriving DecidableEq, Repr

/-- The place of a key in the table: the 7 bits `(op == OPC(bne)) ++ a ++ b` (10_state.md rule R25). -/
def BranchKey.index (k : BranchKey) : Nat :=
  (BitVec.ofBool (k.op == .bne) ++ k.a ++ k.b).toNat

/-- The initial state of an unseen key; none under the static strategies, which never create an entry
(rules R145 to R148, R152; decisions D23, D25). -/
def Strategy.initial : Strategy → Option (BitVec 3)
  | .alwaysTaken => none
  | .alwaysNotTaken => none
  | .oneBit => some 1
  | .twoBit => some 2
  | .eightState => some n8Init

/-- The greatest state of a dynamic strategy (10_state.md rule R26); the static strategies have no states. -/
def Strategy.top : Strategy → Nat
  | .alwaysTaken => 0
  | .alwaysNotTaken => 0
  | .oneBit => 1
  | .twoBit => 3
  | .eightState => 7

/-- The prediction a state stands for (rules R145 to R148, R150). -/
def Strategy.predicts : Strategy → BitVec 3 → Bool
  | .alwaysTaken, _ => true
  | .alwaysNotTaken, _ => false
  | .oneBit, v => v == 1
  | .twoBit, v => decide (2 ≤ v.toNat)
  | .eightState, v => decide (4 ≤ v.toNat)

/-- One step of a saturating counter whose states are 0 to `top` (rules R149, R151). -/
def saturate (top : Nat) (v : BitVec 3) (taken : Bool) : BitVec 3 :=
  if taken then BitVec.ofNat 3 (min top (v.toNat + 1)) else BitVec.ofNat 3 (v.toNat - 1)

/-- The state after an outcome (rules R145 to R147, R149, R151). -/
def Strategy.advance (st : Strategy) (v : BitVec 3) (taken : Bool) : BitVec 3 :=
  match st with
  | .alwaysTaken => v
  | .alwaysNotTaken => v
  | .oneBit => if taken then 1 else 0
  | .twoBit => saturate 3 v taken
  | .eightState => saturate 7 v taken

/-- The table with an entry for the key, created with the initial state if there is none (rule R144). -/
def ensureEntry (st : Strategy) (t : Bpt) (k : BranchKey) : Bpt :=
  match st.initial, tableGet t k.index with
  | some v, none => tableSet t k.index v
  | _, _ => t

/-- The state of a key: its entry, or the strategy's initial state (rules R144, R147, R148, R152). The static strategies have none
and read no entry. -/
def entryOf (st : Strategy) (t : Bpt) (k : BranchKey) : BitVec 3 :=
  (tableGet t k.index).getD (st.initial.getD 0)

/-- `predict(key)`: the answer, and the table with the entry it may have created (rules R140, R144). -/
def predict (st : Strategy) (t : Bpt) (k : BranchKey) : Bool × Bpt :=
  (st.predicts (entryOf st t k), ensureEntry st t k)

/-- `update(key, taken)`: the table with the key's state advanced; a no-op under the static strategies (rules R140, R144 to R153). -/
def update (st : Strategy) (t : Bpt) (k : BranchKey) (taken : Bool) : Bpt :=
  match st.initial with
  | none => t
  | some _ => tableSet t k.index (st.advance (entryOf st t k) taken)

/-- A table some run can hold under a strategy: keys strictly rising and of 7 bits, every state in the strategy's set, and no entry
at all under the static strategies (rules R25, R26, R145, R146). -/
def Bpt.wf (st : Strategy) (t : Bpt) : Bool :=
  tableSorted t && t.all (fun e => decide (e.1 < 128) && decide (e.2.toNat ≤ st.top)) && (st.initial.isSome || t.isEmpty)

end Sys2Proof.Machine
end

