-- ==== Sys2Proof/Machine/Ops.lean ====
section
/-! DEFINITION. The named operations every meaning is built of: register access, raising a fault, the commit of a completed
instruction (40_execution_unit.md rules R82, R86, R89 to R91), and the two other ends of a run. -/

namespace Sys2Proof.Machine

/-! ## Registers (10_state.md rules R10 to R14) -/

/-- `x[r]`. -/
def State.reg (s : State) (r : Reg) : Word := s.regs[r.toNat]'r.toNat_lt_eight

/-- A register file with one register written; no register is hardwired (rule R12). -/
def setReg (regs : Vector Word 8) (r : Reg) (v : Word) : Vector Word 8 := regs.set r.toNat v r.toNat_lt_eight

/-! ## Faults: taking an exception -/

/-- `raise F(info)`: run state Faulted and the fault record with the `pc` of the step; nothing else changes (rules R22, R91). There
is no return from a fault: only reset leaves Faulted (60_exceptions.md rule R170, 70_reset_and_hazards.md rule R190). -/
def State.raise (s : State) (cause : FaultCause) (info : FaultInfo) : State :=
  { s with runState := .faulted, fault := some { cause := cause, pc := s.pc, info := info } }

/-- A step that ends in a fault. -/
def faultWith (s : State) (cause : FaultCause) (info : FaultInfo) : Host.Outcome State Fault Refusal :=
  .next (s.raise cause info)

/-! ## The other ends of a run -/

/-- The cycle budget is exceeded: the run state changes and nothing else (rules R83, R178). -/
def State.timeOut (s : State) : State := { s with runState := .timedOut }

/-- A zero word was fetched: the run state changes and nothing else; `pc` stays on the zero word (rule R85). -/
def State.halt (s : State) : State := { s with runState := .halted }

/-! ## Completion -/

/-- What an instruction computes in step 5 of rule R82: at most one register write, at most one memory write, the new `pc`, the
cost, whether it was mispredicted, and the new predictor table (`beq`, `bne` only). -/
structure Effect where
  reg : Option (Reg × Word) := none
  mem : Option Memory := none
  newPc : Int
  cost : Nat
  mispredicted : Bool := false
  bpt : Option Bpt := none
  deriving DecidableEq, Repr

/-- The commit, step 6 of rule R82: all writes together, then the counters (rules R89, R90, R128). -/
def State.commit (s : State) (e : Effect) : State :=
  { s with
    regs := match e.reg with
      | some (r, v) => setReg s.regs r v
      | none => s.regs
    mem := e.mem.getD s.mem
    bpt := e.bpt.getD s.bpt
    pc := e.newPc
    executed := s.executed + 1
    cycles := s.cycles + (e.cost + if e.mispredicted then cycMispredict else 0)
    stalls := s.stalls + if e.mispredicted then stallMispredict else 0
    flushes := s.flushes + if e.mispredicted then flushMispredict else 0 }

/-- A step that completes an instruction. -/
def complete (s : State) (e : Effect) : Host.Outcome State Fault Refusal := .next (s.commit e)

/-- `npc`: the program counter the fetch has already advanced (rule R86). -/
def State.npc (s : State) : Int := s.pc + 1

/-- A plain instruction that writes one register: `pc` becomes `npc` and the cost is `CYC_PLAIN` (rules R100, R110). -/
def writeResult (s : State) (rd : Reg) (v : Word) : Host.Outcome State Fault Refusal :=
  complete s { reg := some (rd, v), newPc := s.npc, cost := cycPlain }

/-- A plain instruction whose result may be a fault in its place: the fault records the instruction word, and the word of an
instruction is its encoding (rule R57; log entry 7). -/
def writeResultOr (s : State) (i : Instr) (cause : FaultCause) (rd : Reg) (result : Option Word) :
    Host.Outcome State Fault Refusal :=
  match result with
  | some v => writeResult s rd v
  | none => faultWith s cause (.word (encode i))

/-! ## The numbers of the enumerations (labels only: no rule depends on them) -/

/-- The two-bit encoding of the run state (rule R18). -/
def RunState.code : RunState → BitVec 2
  | .running => 0
  | .halted => 1
  | .timedOut => 2
  | .faulted => 3

/-- The three-bit selector of the strategy; 5 to 7 are not selectable (rule R19). -/
def Strategy.code : Strategy → BitVec 3
  | .alwaysTaken => 0
  | .alwaysNotTaken => 1
  | .oneBit => 2
  | .twoBit => 3
  | .eightState => 4

/-- The code of a fault cause (60_exceptions.md rule R171). -/
def FaultCause.code : FaultCause → Nat
  | .memAddressOutOfRange => 1
  | .fetchOutOfRange => 2
  | .illegalInstruction => 3
  | .divideByZero => 4
  | .negativeShiftAmount => 5

end Sys2Proof.Machine
end

