-- ==== Sys2Proof/Machine/Branches.lean ====
section
/-! DEFINITION. The conditional branches and the prediction path (44_branches.md rules R125 to R129). -/

namespace Sys2Proof.Machine

/-- The prediction path common to both branches (rule R125): predict, resolve, update, then the new `pc`, the cost and the
misprediction. `taken` is the true outcome. -/
def branch (op : BranchOp) (rd rs : Reg) (imm : Imm6) (taken : Bool) (s : State) : Host.Outcome State Fault Refusal :=
  let key : BranchKey := { op := op, a := rd, b := rs }
  let guess := predict s.strategy s.bpt key
  complete s
    { newPc := if taken then s.npc + sext6 imm else s.npc
      cost := if taken then cycBrTaken else cycBrNotTaken
      mispredicted := guess.1 != taken
      bpt := some (update s.strategy guess.2 key taken) }

/-- `beq $rd, $rs, label` (rule R126). -/
def execBeq (rd rs : Reg) (imm : Imm6) (s : State) : Host.Outcome State Fault Refusal :=
  branch .beq rd rs imm (condEqual (s.reg rd) (s.reg rs)) s

/-- `bne $rd, $rs, label` (rule R127). -/
def execBne (rd rs : Reg) (imm : Imm6) (s : State) : Host.Outcome State Fault Refusal :=
  branch .bne rd rs imm (condNotEqual (s.reg rd) (s.reg rs)) s

end Sys2Proof.Machine
end

