-- ==== Sys2Proof/Machine/ImmediateFormat.lean ====
section
/-! DEFINITION. The immediate-format arithmetic, load-immediate and shift instructions (42_immediate_format.md rules R110 to R117). -/

namespace Sys2Proof.Machine

/-- `addi $rd, $rs, imm` (rule R111). -/
def execAddi (rd rs : Reg) (imm : Imm6) (s : State) : Host.Outcome State Fault Refusal :=
  writeResult s rd (addImmediate (s.reg rs) imm)

/-- `li $rd, imm`; the `rs` field is no operand (rules R62, R112). -/
def execLi (rd : Reg) (imm : Imm6) (s : State) : Host.Outcome State Fault Refusal :=
  writeResult s rd (loadImmediate imm)

/-- `lui $rd, imm`; the `rs` field is no operand (rules R62, R113). -/
def execLui (rd : Reg) (imm : Imm6) (s : State) : Host.Outcome State Fault Refusal :=
  writeResult s rd (loadUpper imm)

/-- `sll $rd, $rs, imm`; a negative amount is NegativeShiftAmount (rules R114, R117). -/
def execSll (rd rs : Reg) (imm : Imm6) (s : State) : Host.Outcome State Fault Refusal :=
  writeResultOr s (.sll rd rs imm) .negativeShiftAmount rd (shiftLeft (s.reg rs) (sext6 imm))

/-- `srl $rd, $rs, imm`; a negative amount is NegativeShiftAmount (rules R115, R117). -/
def execSrl (rd rs : Reg) (imm : Imm6) (s : State) : Host.Outcome State Fault Refusal :=
  writeResultOr s (.srl rd rs imm) .negativeShiftAmount rd (shiftRight (s.reg rs) (sext6 imm))

/-- `sra $rd, $rs, imm`; a negative amount is NegativeShiftAmount (rules R116, R117). -/
def execSra (rd rs : Reg) (imm : Imm6) (s : State) : Host.Outcome State Fault Refusal :=
  writeResultOr s (.sra rd rs imm) .negativeShiftAmount rd (shiftArith (s.reg rs) (sext6 imm))

end Sys2Proof.Machine
end

