-- ==== Sys2Proof/Machine/Jumps.lean ====
section
/-! DEFINITION. The jumps (45_jumps.md rules R130 to R132). The target is not range-checked here: the next step's fetch is
(40_execution_unit.md rule R84). -/

namespace Sys2Proof.Machine

/-- The target of a jump: the already advanced `pc` plus the displacement (rules R130, R131). -/
def jumpTarget (s : State) (imm : Imm12) : Int := s.npc + sext12 imm

/-- `jmp label` (rule R130). -/
def execJmp (imm : Imm12) (s : State) : Host.Outcome State Fault Refusal :=
  complete s { newPc := jumpTarget s imm, cost := cycPlain }

/-- `jal label`: the link register gets the target, not the return address (rule R131, 90_conflicts.md C1). -/
def execJal (imm : Imm12) (s : State) : Host.Outcome State Fault Refusal :=
  complete s { reg := some (linkReg, u16 (jumpTarget s imm)), newPc := jumpTarget s imm, cost := cycPlain }

end Sys2Proof.Machine
end

