-- ==== Sys2Proof/Machine/LoadStore.lean ====
section
/-! DEFINITION. The load and the store (43_load_store.md rules R120 to R123). -/

namespace Sys2Proof.Machine

/-- `lw $rd, $rs, imm`: one whole cell into `rd`, or MemAddressOutOfRange with no effect (rules R120, R121, R172). -/
def execLw (rd rs : Reg) (imm : Imm6) (s : State) : Host.Outcome State Fault Refusal :=
  let ea := effectiveAddress (s.reg rs) imm
  match memRead s.mem ea with
  | some v => writeResult s rd v
  | none => faultWith s .memAddressOutOfRange (.address ea)

/-- `sw $rd, $rs, imm`: `x[rd]` into one whole cell, or MemAddressOutOfRange with no effect (rules R120, R122, R172). -/
def execSw (rd rs : Reg) (imm : Imm6) (s : State) : Host.Outcome State Fault Refusal :=
  let ea := effectiveAddress (s.reg rs) imm
  match memWrite s.mem ea (s.reg rd) with
  | some m => complete s { mem := some m, newPc := s.npc, cost := cycPlain }
  | none => faultWith s .memAddressOutOfRange (.address ea)

end Sys2Proof.Machine
end

