-- ==== Sys2Proof/Machine/RegisterFormat.lean ====
section
/-! DEFINITION. The register-format instructions (41_register_format.md rules R100 to R107). -/

namespace Sys2Proof.Machine

/-- `add $rd, $rs, $rt` (rule R101). -/
def execAdd (rd rs rt : Reg) (s : State) : Host.Outcome State Fault Refusal :=
  writeResult s rd (addWords (s.reg rs) (s.reg rt))

/-- `sub $rd, $rs, $rt` (rule R102). -/
def execSub (rd rs rt : Reg) (s : State) : Host.Outcome State Fault Refusal :=
  writeResult s rd (subWords (s.reg rs) (s.reg rt))

/-- `slt $rd, $rs, $rt` (rule R103). -/
def execSlt (rd rs rt : Reg) (s : State) : Host.Outcome State Fault Refusal :=
  writeResult s rd (sltWords (s.reg rs) (s.reg rt))

/-- `mul $rd, $rs, $rt` (rule R104). -/
def execMul (rd rs rt : Reg) (s : State) : Host.Outcome State Fault Refusal :=
  writeResult s rd (mulWords (s.reg rs) (s.reg rt))

/-- `div $rd, $rs, $rt`; a zero divisor is DivideByZero (rules R105, R175). -/
def execDiv (rd rs rt : Reg) (s : State) : Host.Outcome State Fault Refusal :=
  writeResultOr s (.div rd rs rt) .divideByZero rd (divWords (s.reg rs) (s.reg rt))

/-- `sllr $rd, $rs, $rt`; a negative amount is NegativeShiftAmount (rules R106, R176). -/
def execSllr (rd rs rt : Reg) (s : State) : Host.Outcome State Fault Refusal :=
  writeResultOr s (.sllr rd rs rt) .negativeShiftAmount rd (shiftLeft (s.reg rs) (s16 (s.reg rt)))

/-- `srlr $rd, $rs, $rt`; a negative amount is NegativeShiftAmount (rules R107, R176). -/
def execSrlr (rd rs rt : Reg) (s : State) : Host.Outcome State Fault Refusal :=
  writeResultOr s (.srlr rd rs rt) .negativeShiftAmount rd (shiftRight (s.reg rs) (s16 (s.reg rt)))

end Sys2Proof.Machine
end

