-- ==== Sys2Proof/Machine/Dispatch.lean ====
section
/-! DEFINITION. The meaning of every instruction: steps 5 and 6 of 40_execution_unit.md rule R82. -/

namespace Sys2Proof.Machine

def exec (i : Instr) (s : State) : Host.Outcome State Fault Refusal :=
  match i with
  | .add rd rs rt => Sys2Proof.Machine.execAdd rd rs rt s
  | .sub rd rs rt => Sys2Proof.Machine.execSub rd rs rt s
  | .slt rd rs rt => Sys2Proof.Machine.execSlt rd rs rt s
  | .mul rd rs rt => Sys2Proof.Machine.execMul rd rs rt s
  | .div rd rs rt => Sys2Proof.Machine.execDiv rd rs rt s
  | .sllr rd rs rt => Sys2Proof.Machine.execSllr rd rs rt s
  | .srlr rd rs rt => Sys2Proof.Machine.execSrlr rd rs rt s
  | .addi rd rs imm => Sys2Proof.Machine.execAddi rd rs imm s
  | .li rd _ imm => Sys2Proof.Machine.execLi rd imm s
  | .lui rd _ imm => Sys2Proof.Machine.execLui rd imm s
  | .lw rd rs imm => Sys2Proof.Machine.execLw rd rs imm s
  | .sw rd rs imm => Sys2Proof.Machine.execSw rd rs imm s
  | .beq rd rs imm => Sys2Proof.Machine.execBeq rd rs imm s
  | .bne rd rs imm => Sys2Proof.Machine.execBne rd rs imm s
  | .sll rd rs imm => Sys2Proof.Machine.execSll rd rs imm s
  | .srl rd rs imm => Sys2Proof.Machine.execSrl rd rs imm s
  | .sra rd rs imm => Sys2Proof.Machine.execSra rd rs imm s
  | .jmp imm => Sys2Proof.Machine.execJmp imm s
  | .jal imm => Sys2Proof.Machine.execJal imm s

end Sys2Proof.Machine
end

