-- ==== Sys2Proof/Machine/Run.lean ====
section
/-! DEFINITION. The step of the Execution Unit (40_execution_unit.md rules R80 to R88) and how a word is placed for the next step. -/

namespace Sys2Proof.Machine

/-- Steps 4 and 5 of rule R82 for a fetched word: the sentinel halts (rule R85), a reserved encoding faults (rule R88), an
instruction executes (rule R87). -/
def runWord (w : Word) (s : State) : Host.Outcome State Fault Refusal :=
  match classify w with
  | .sentinel => .next s.halt
  | .reserved _ => faultWith s .illegalInstruction (.word w)
  | .instr i => exec i s

/-- One step from Running, in the order of rules R82 and R179: timeout, fetch range, then the fetched word. -/
def runningStep (s : State) : Host.Outcome State Fault Refusal :=
  if s.budget < s.cycles then .next s.timeOut
  else
    match fetch s.mem s.pc with
    | none => faultWith s .fetchOutOfRange (.address s.pc)
    | some w => runWord w s

/-- One step: only Running has one; in the terminal run states no state changes until the next reset (rule R81; log entry 2). -/
def stepOf (s : State) : Host.Outcome State Fault Refusal :=
  match s.runState with
  | .running => runningStep s
  | .halted => .next s
  | .timedOut => .next s
  | .faulted => .next s

/-- A state from which the next step fetches: Running, within the budget, the `pc` inside memory. A state that is so already is
unchanged, but for a fault record, which a Running state of a run never holds (log entry 10). -/
def State.readied (s : State) : State :=
  { s with
    runState := .running
    fault := none
    budget := max s.budget s.cycles
    pc := if inArray s.pc then s.pc else 0 }

/-- The word stored where the next step fetches. -/
def State.withWordAtPc (s : State) (w : Word) : State :=
  { s.readied with mem := s.mem.write s.readied.pc.toNat w }

end Sys2Proof.Machine
end

