-- ==== Sys2Proof/Machine/Step.lean ====
section
/-! DEFINITION. The one step of the machine, and the state whose next step runs a given word. -/

namespace Sys2Proof.Machine

/-- One step of the Execution Unit (40_execution_unit.md rule R82). -/
def step (s : State) : Host.Outcome State Fault Refusal := stepOf s

/-- The instruction of `nbits` bits whose bits are `w`, stored where the next step fetches (one instruction is one cell,
30_encoding.md rule R50; log entry 10). -/
def State.withFetchWord (s : State) (nbits w : Nat) : State := s.withWordAtPc (BitVec.ofNat 16 (w % 2 ^ nbits))

end Sys2Proof.Machine
end

