-- ==== Sys2Proof/Machine/Assembler.lean ====
section
/-! DEFINITION. The host's assembler at the interface the spec keeps of it (00_scope.md rule R5): source lines, the map of operands to
fields, labels with back-patching, and the assembly errors (30_encoding.md rules R65 to R73). A text is a list of lines, a line a
list of characters. -/

namespace Sys2Proof.Machine

/-- A piece of source text. -/
abbrev Text := List Char

/-- Why assembly is aborted. The first four are rule R73's; the last three are texts the source does not define, which the model
refuses (log entry 14). -/
inductive AsmError where
  | unresolvedLabel (name : Text)
  | unknownMnemonic (name : Text)
  | tooManyOperands
  | programTooLong
  | malformedOperand (operand : Text)
  | malformedLine
  | labelDefinedTwice (name : Text)
  deriving DecidableEq, Repr

/-- The assembler's spelling of a mnemonic (section 7 of 30_encoding.md). -/
def mnemonicText : Mnemonic → Text
  | .add => ['a', 'd', 'd']
  | .sub => ['s', 'u', 'b']
  | .slt => ['s', 'l', 't']
  | .mul => ['m', 'u', 'l']
  | .div => ['d', 'i', 'v']
  | .sllr => ['s', 'l', 'l', 'r']
  | .srlr => ['s', 'r', 'l', 'r']
  | .addi => ['a', 'd', 'd', 'i']
  | .li => ['l', 'i']
  | .lui => ['l', 'u', 'i']
  | .lw => ['l', 'w']
  | .sw => ['s', 'w']
  | .beq => ['b', 'e', 'q']
  | .bne => ['b', 'n', 'e']
  | .sll => ['s', 'l', 'l']
  | .srl => ['s', 'r', 'l']
  | .sra => ['s', 'r', 'a']
  | .jmp => ['j', 'm', 'p']
  | .jal => ['j', 'a', 'l']

/-! ## Operands (rules R66 to R68) -/

/-- The field an operand fills: `target` is the displacement of a branch or jump. -/
inductive Slot where
  | rd | rs | rt | imm | target
  deriving DecidableEq, Repr

/-- The operands of a mnemonic, in order (rule R67). -/
def slotsOf : Mnemonic → List Slot
  | .add | .sub | .slt | .mul | .div | .sllr | .srlr => [.rd, .rs, .rt]
  | .addi | .lw | .sw | .sll | .srl | .sra => [.rd, .rs, .imm]
  | .li | .lui => [.rd, .imm]
  | .beq | .bne => [.rd, .rs, .target]
  | .jmp | .jal => [.target]

/-- An instruction line: field values before truncation, and the label its displacement refers to, if it names one. -/
structure Draft where
  mnemonic : Mnemonic
  rd : Int := 0
  rs : Int := 0
  rt : Int := 0
  imm : Int := 0
  label : Option Text := none
  deriving DecidableEq, Repr

/-- A source line: a label definition or an instruction (rule R65). -/
inductive Line where
  | label (name : Text)
  | instr (d : Draft)
  deriving DecidableEq, Repr

/-- White space inside a line (DESIGN CHOICE, log entry 14). -/
def isBlank (c : Char) : Bool := c == ' ' || c == '\t'

/-- A text without the white space around it. -/
def trim (t : Text) : Text := ((t.dropWhile isBlank).reverse.dropWhile isBlank).reverse

/-- The comma-separated parts of a text. -/
def splitCommas : Text → List Text
  | [] => [[]]
  | c :: rest =>
    if c == ',' then [] :: splitCommas rest
    else
      match splitCommas rest with
      | [] => [[c]]
      | part :: parts => (c :: part) :: parts

/-- The value of a decimal digit. -/
def digitValue (c : Char) : Option Nat :=
  if 48 ≤ c.toNat ∧ c.toNat ≤ 57 then some (c.toNat - 48) else none

/-- A numeral read from the left onto the value so far. -/
def digitsOnto : Nat → Text → Option Nat
  | n, [] => some n
  | n, c :: rest =>
    match digitValue c with
    | some d => digitsOnto (10 * n + d) rest
    | none => none

/-- A decimal numeral. -/
def parseNat (t : Text) : Option Nat := if t = [] then none else digitsOnto 0 t

/-- A decimal integer literal, optionally negative (rule R67). A leading `+` is not read, so `+1` is a label name where a branch or jump
operand stands and a malformed operand elsewhere, and leading zeros are read (DESIGN CHOICE, log entry 22). -/
def parseInt : Text → Option Int
  | '-' :: rest => (parseNat rest).map (fun n => -(n : Int))
  | t => (parseNat t).map (fun n => (n : Int))

/-- A register operand `$r<i>`: the index after the two-character prefix (rule R66). A numeral of several digits is read whole, and
the prefix is in lower case (DESIGN CHOICE, log entries 14, 18). -/
def parseRegister : Text → Option Int
  | '$' :: 'r' :: rest => (parseNat rest).map (fun n => (n : Int))
  | _ => none

/-- An operand put into the field it fills; a blank operand leaves 0 there (rules R67, R68). A branch or jump operand that is a decimal
literal is the displacement (rule R67), and every other token is a label name, so a label whose name is a numeral cannot be referenced
(DESIGN CHOICE, log entry 20). -/
def fillSlot (d : Draft) (slot : Slot) (operand : Text) : Except AsmError Draft :=
  if operand = [] then .ok d
  else
    match slot with
    | .rd => match parseRegister operand with
      | some n => .ok { d with rd := n }
      | none => .error (.malformedOperand operand)
    | .rs => match parseRegister operand with
      | some n => .ok { d with rs := n }
      | none => .error (.malformedOperand operand)
    | .rt => match parseRegister operand with
      | some n => .ok { d with rt := n }
      | none => .error (.malformedOperand operand)
    | .imm => match parseInt operand with
      | some n => .ok { d with imm := n }
      | none => .error (.malformedOperand operand)
    | .target => match parseInt operand with
      | some n => .ok { d with imm := n }
      | none => .ok { d with label := some operand }

/-- The operands of a line put into its fields: missing ones default to 0, one too many is an error (rule R68). A blank operand past
the last one, as a trailing comma makes it, counts as one too many (DESIGN CHOICE, log entry 21). -/
def fillSlots (d : Draft) : List Slot → List Text → Except AsmError Draft
  | _, [] => .ok d
  | [], _ :: _ => .error .tooManyOperands
  | slot :: slots, operand :: operands =>
    match fillSlot d slot operand with
    | .error e => .error e
    | .ok d' => fillSlots d' slots operands

/-- A source line read (rules R65 to R68). Three points that rule R65 names as undefined are the model's choice (DESIGN CHOICE): letter
case matters, so `ADD` is an unknown mnemonic (log entry 18); a label and an instruction on one line are refused (log entry 19); blank
lines and comments are refused (log entry 14). Any non-blank token before the `:` is a label name (log entry 20). -/
def parseLine (t : Text) : Except AsmError Line :=
  let t := trim t
  let first := t.takeWhile (fun c => !isBlank c)
  let rest := trim (t.dropWhile (fun c => !isBlank c))
  if first = [] then .error .malformedLine
  else if first.getLast? = some ':' then
    if rest = [] ∧ first ≠ [':'] then .ok (.label first.dropLast) else .error .malformedLine
  else
    match allMnemonics.find? (fun m => mnemonicText m == first) with
    | none => .error (.unknownMnemonic first)
    | some m =>
      match fillSlots { mnemonic := m } (slotsOf m) ((splitCommas rest).map trim) with
      | .error e => .error e
      | .ok d => .ok (.instr d)

/-- All lines read, stopping at the first error (its place among several errors is log entry 23). -/
def parseLines : List Text → Except AsmError (List Line)
  | [] => .ok []
  | t :: ts =>
    match parseLine t with
    | .error e => .error e
    | .ok l =>
      match parseLines ts with
      | .error e => .error e
      | .ok ls => .ok (l :: ls)

/-! ## Labels, back-patching and emission (rules R69 to R73) -/

/-- The displacement from the instruction at `address` to `target` (rule R70). -/
def displacement (target address : Nat) : Int := (target : Int) - (address : Int) - 1

/-- The word of an instruction line: every field masked by the Codec (rules R53, R54, R67). -/
def Draft.word (d : Draft) : Word :=
  encodeFields (formatOf d.mnemonic)
    { opcode := (opcodeOf d.mnemonic).toNat
      rd := d.rd
      rs := d.rs
      rt := d.rt
      func := ((functionOf d.mnemonic).getD 0).toNat
      imm := d.imm }

/-- The assembler's state: the instructions emitted so far, the labels defined, and the pending list: each unresolved use, with its
address (rule R71). -/
structure AsmState where
  emitted : List Draft
  labels : List (Text × Nat)
  pending : List (Text × Nat)
  deriving DecidableEq, Repr

/-- The address of a label already defined. -/
def findLabel (name : Text) : List (Text × Nat) → Option Nat
  | [] => none
  | (n, a) :: rest => if n = name then some a else findLabel name rest

/-- The emitted instructions with every pending use of a label patched (rule R71). -/
def patchPending (name : Text) (target : Nat) : List (Text × Nat) → List Draft → List Draft
  | [], emitted => emitted
  | (n, p) :: rest, emitted =>
    patchPending name target rest
      (if n = name then emitted.modify p (fun d => { d with imm := displacement target p }) else emitted)

/-- One line assembled (rules R69 to R71, R73). -/
def assembleLine (st : AsmState) : Line → Except AsmError AsmState
  | .label name =>
    match findLabel name st.labels with
    | some _ => .error (.labelDefinedTwice name)
    | none =>
      let here := st.emitted.length
      .ok { emitted := patchPending name here st.pending st.emitted
            labels := (name, here) :: st.labels
            pending := st.pending.filter (fun p => p.1 != name) }
  | .instr d =>
    let here := st.emitted.length
    if Config.codeWords ≤ here then .error .programTooLong
    else
      match d.label with
      | none => .ok { st with emitted := st.emitted ++ [d] }
      | some name =>
        match findLabel name st.labels with
        | some target => .ok { st with emitted := st.emitted ++ [{ d with imm := displacement target here }] }
        | none => .ok { st with emitted := st.emitted ++ [d], pending := st.pending ++ [(name, here)] }

/-- The lines assembled in one traversal. -/
def assembleFrom : AsmState → List Line → Except AsmError AsmState
  | st, [] => .ok st
  | st, l :: ls =>
    match assembleLine st l with
    | .error e => .error e
    | .ok st' => assembleFrom st' ls

/-- The program image of a list of lines; an unresolved label at the end of the text is an error (rules R71, R73). -/
def assembleLines (ls : List Line) : Except AsmError (List Word) :=
  match assembleFrom { emitted := [], labels := [], pending := [] } ls with
  | .error e => .error e
  | .ok st =>
    match st.pending with
    | [] => .ok (st.emitted.map Draft.word)
    | (name, _) :: _ => .error (.unresolvedLabel name)

/-- The program image of a source text (rules R65 to R73). All lines are read before any is assembled, so of several errors the first
one in reading is answered, before `programTooLong`, `labelDefinedTwice` and `unresolvedLabel` of any line (DESIGN CHOICE, log entry
23). -/
def assemble (text : List Text) : Except AsmError (List Word) :=
  match parseLines text with
  | .error e => .error e
  | .ok ls => assembleLines ls

/-! ## What a label means, without the traversal -/

/-- How many words a line emits: a label line emits none (rule R69). -/
def Line.emits : Line → Nat
  | .label _ => 0
  | .instr _ => 1

/-- The address of the instruction after a label's definition line, counting from a given address (rule R69). -/
def labelAddressFrom (name : Text) : Nat → List Line → Option Nat
  | _, [] => none
  | here, .label n :: ls => if n = name then some here else labelAddressFrom name here ls
  | here, .instr _ :: ls => labelAddressFrom name (here + 1) ls

/-- The instruction lines of a text, in order; the line with index `k` is at address `k` (rule R69). -/
def instructionLines : List Line → List Draft
  | [] => []
  | .label _ :: ls => instructionLines ls
  | .instr d :: ls => d :: instructionLines ls

end Sys2Proof.Machine
end

