-- ==== Sys2Proof/Machine/Loader.lean ====
section
/-! DEFINITION. The host before a run: the loader and the run parameters (20_memory.md rule R38, 70_reset_and_hazards.md rules R190,
R191). -/

namespace Sys2Proof.Machine

/-- Why the host stops before a run; the block stays in its reset state and takes no step (60_exceptions.md rule R184). -/
inductive HostError where
  | assembly (e : AsmError)
  | programTooLong
  | dataTooLong
  | malformedLiteral (line : Text)
  deriving DecidableEq, Repr

/-- Consecutive cells written from an address upward. -/
def loadCells : Memory → Nat → List Word → Memory
  | m, _, [] => m
  | m, a, w :: ws => loadCells (m.write a w) (a + 1) ws

/-- The program image to address 0 upward, at most 256 words (rule R38 (a)). -/
def loadProgram (image : List Word) (s : State) : Except HostError State :=
  if image.length ≤ Config.codeWords then .ok { s with mem := loadCells s.mem Config.codeBase image }
  else .error .programTooLong

/-- The data image to address 256 upward, at most 256 values, each reduced to 16 bits (rule R38 (b)). -/
def loadData (values : List Int) (s : State) : Except HostError State :=
  if values.length ≤ Config.dataWords then
    .ok { s with mem := loadCells s.mem Config.dataBase (values.map u16) }
  else .error .dataTooLong

/-- The data file's lines, one decimal integer literal each (rule R38; decision D30), in the literal form of `parseInt`
(DESIGN CHOICE, log entries 16, 22). -/
def dataValues : List Text → Except HostError (List Int)
  | [] => .ok []
  | t :: ts =>
    match parseInt (trim t) with
    | none => .error (.malformedLiteral t)
    | some v =>
      match dataValues ts with
      | .error e => .error e
      | .ok vs => .ok (v :: vs)

/-- The run parameters the host supplies (rules R19, R191). -/
structure RunParameters where
  budget : Nat
  strategy : Strategy
  staticCount : Nat
  deriving DecidableEq, Repr

/-- The run parameters latched. -/
def State.withParameters (s : State) (p : RunParameters) : State :=
  { s with budget := p.budget, strategy := p.strategy, staticCount := p.staticCount }

/-- The state a run of a loaded image starts in: reset, load, parameters (rule R191 (2) to (4)). -/
def startImage (image : List Word) (data : List Int) (p : RunParameters) : Except HostError State :=
  match loadProgram image .reset with
  | .error e => .error e
  | .ok s =>
    match loadData data s with
    | .error e => .error e
    | .ok s' => .ok (s'.withParameters p)

/-- The state a run of a source text starts in; the static instruction count is the number of words emitted
(rules R164, R191; decision D35; log entry 16). Of several errors an assembly error is answered first, then a malformed data literal,
then an image that is too long (DESIGN CHOICE, log entry 23). -/
def startText (text data : List Text) (budget : Nat) (strategy : Strategy) : Except HostError State :=
  match assemble text with
  | .error e => .error (.assembly e)
  | .ok image =>
    match dataValues data with
    | .error e => .error e
    | .ok values => startImage image values { budget := budget, strategy := strategy, staticCount := image.length }

end Sys2Proof.Machine
end

