-- ==== Sys2Proof/Machine/Reporter.lean ====
section
/-! DEFINITION. The read-out of a finished run (47_performance_reporter.md rules R160 to R163). The metrics are exact rationals. -/

namespace Sys2Proof.Machine

/-- Instructions per cycle (rule R161). -/
def ipc (executed cycles : Nat) : Rat := if cycles = 0 then 0 else (executed : Rat) / (cycles : Rat)

/-- Prediction accuracy, a percentage (rule R161). -/
def accuracy (executed stalls : Nat) : Rat :=
  if executed = 0 then 0 else ((executed : Rat) - (stalls : Rat)) / (executed : Rat) * 100

/-- Speedup (rule R161). -/
def speedup (cycles stalls : Nat) : Rat :=
  if cycles + stalls = 0 then 0 else (cycles : Rat) / ((cycles : Rat) + (stalls : Rat))

/-- The report of a run that ended in Halted (rule R163). -/
structure Report where
  cycles : Nat
  staticCount : Nat
  executed : Nat
  stalls : Nat
  accuracy : Rat
  speedup : Rat
  ipc : Rat
  pc : Int
  registers : Vector Word 8
  nonzeroCells : List (Nat × Word)
  deriving DecidableEq, Repr

/-- Every non-zero cell of the array with its address (rules R162, R163). -/
def Memory.nonzeroCells (m : Memory) : List (Nat × Word) :=
  ((List.range Config.memWords).map (fun a => (a, m.read a))).filter (fun c => c.2 != 0)

/-- The report; none after TimedOut or a fault, which give no meaningful report, and none during a run
(rules R28, R93, R163, R185). -/
def State.report (s : State) : Option Report :=
  match s.runState with
  | .halted => some
    { cycles := s.cycles
      staticCount := s.staticCount
      executed := s.executed
      stalls := s.stalls
      accuracy := accuracy s.executed s.stalls
      speedup := speedup s.cycles s.stalls
      ipc := ipc s.executed s.cycles
      pc := s.pc
      registers := s.regs
      nonzeroCells := s.mem.nonzeroCells }
  | .running => none
  | .timedOut => none
  | .faulted => none

end Sys2Proof.Machine
end

