-- ==== Sys2Proof/Safety.lean ====
section
/-! DEFINITION. The terms in which claims are stated: what a completed instruction leaves alone, what a fault leaves alone, the ends of
a run, and the invariants of the machine. -/

namespace Sys2Proof.Machine

/-! ## Frames -/

/-- What no completed instruction touches: the run state, the fault record and the run parameters. -/
def SameRun (s t : State) : Prop :=
  t.runState = s.runState ∧ t.fault = s.fault ∧ t.budget = s.budget ∧ t.strategy = s.strategy ∧ t.staticCount = s.staticCount

/-- Every cell of memory reads as before. -/
def SameMemory (s t : State) : Prop := ∀ a : Nat, t.mem.read a = s.mem.read a

/-- Every register reads as before. -/
def SameRegs (s t : State) : Prop := ∀ r : Reg, t.reg r = s.reg r

/-- One instruction more is counted, with its cycles, stalls and flushes (rules R89, R90, R128). -/
def Counted (s t : State) (cycles stalls flushes : Nat) : Prop :=
  t.executed = s.executed + 1 ∧ t.cycles = s.cycles + cycles ∧ t.stalls = s.stalls + stalls ∧ t.flushes = s.flushes + flushes

/-- A plain instruction completed and wrote one register: that register holds `v`, every other register, every cell and the predictor
table are as before, `pc` is one further, and it cost one cycle (rules R100, R110, R120). -/
def WritesOnly (s t : State) (rd : Reg) (v : Word) : Prop :=
  t.reg rd = v ∧ (∀ r : Reg, r ≠ rd → t.reg r = s.reg r) ∧ t.pc = s.pc + 1 ∧ SameMemory s t ∧ t.bpt = s.bpt ∧
    Counted s t 1 0 0 ∧ SameRun s t

/-- A store completed: the cell at `a` holds `v`, every other cell, every register and the predictor table are as before
(rules R33, R120, R122). -/
def StoresOnly (s t : State) (a : Nat) (v : Word) : Prop :=
  t.mem.read a = v ∧ (∀ b : Nat, b ≠ a → t.mem.read b = s.mem.read b) ∧ SameRegs s t ∧ t.pc = s.pc + 1 ∧ t.bpt = s.bpt ∧
    Counted s t 1 0 0 ∧ SameRun s t

/-- A branch completed with an outcome and a prediction: `pc`, cost, stalls and flushes by rules R125 and R128, the table updated at
the branch's key, nothing else changed. -/
def Branches (s t : State) (key : BranchKey) (disp : Int) (taken : Bool) : Prop :=
  t.pc = (if taken then s.pc + 1 + disp else s.pc + 1) ∧ SameRegs s t ∧ SameMemory s t ∧
    t.bpt = update s.strategy (predict s.strategy s.bpt key).2 key taken ∧
    Counted s t (if taken then 3 else 1) (if (predict s.strategy s.bpt key).1 = taken then 0 else 1)
      (if (predict s.strategy s.bpt key).1 = taken then 0 else 1) ∧
    SameRun s t

/-- A fault was raised: the run state is Faulted, the record holds the cause, the `pc` of the step and the information, and nothing
else changed (rules R22, R91). -/
def FaultsAs (s t : State) (cause : FaultCause) (info : FaultInfo) : Prop :=
  t.runState = .faulted ∧ t.fault = some { cause := cause, pc := s.pc, info := info } ∧
    SameRegs s t ∧ SameMemory s t ∧ t.pc = s.pc ∧ t.bpt = s.bpt ∧ t.cycles = s.cycles ∧ t.executed = s.executed ∧
    t.stalls = s.stalls ∧ t.flushes = s.flushes ∧ t.budget = s.budget ∧ t.strategy = s.strategy ∧ t.staticCount = s.staticCount

/-! ## Runs -/

/-- The next step is the step of an executing machine: Running, the cycle budget not exceeded (rules R82, R83). -/
def InBudget (s : State) : Prop := s.runState = .running ∧ s.cycles ≤ s.budget

/-- A run is over: the run state is terminal (rules R81, R92). -/
def Ended (s : State) : Prop := s.runState ≠ .running

/-- A safe end of a run: only Halted is a successful one (rule R93). -/
def SafeEnd (s : State) : Prop := s.runState = .halted

/-- The state after `k` steps of the machine, where it answers one. -/
def ReachesIn (k : Nat) (s t : State) : Prop := Host.Core.run Sys2Proof.core k s = .next t

/-- Agreement on everything architectural and on the counters a result can depend on: registers, memory, `pc`, run state, fault
record, `cycles`, `executed` and the budget. The strategy, the table, `stalls`, `flushes` and the static count may differ
(rules R27, R95, R154). -/
def SameArchitecture (s t : State) : Prop :=
  t.regs = s.regs ∧ t.mem = s.mem ∧ t.pc = s.pc ∧ t.runState = s.runState ∧ t.fault = s.fault ∧ t.cycles = s.cycles ∧
    t.executed = s.executed ∧ t.budget = s.budget

/-! ## Invariants -/

/-- `pc` fits a signed 16-bit integer with room to spare (rule R15). -/
def PcInRange (s : State) : Prop := -2047 ≤ s.pc ∧ s.pc ≤ 2559

/-- The memory is in its canonical form. -/
def MemoryCanonical (s : State) : Prop := s.mem.wf = true

/-- The predictor table is one the strategy can have made (rules R25, R26, R145, R146). -/
def TableLegal (s : State) : Prop := Bpt.wf s.strategy s.bpt = true

/-- A fault is recorded exactly in Faulted (rules R22, R29). -/
def FaultRecorded (s : State) : Prop := s.fault.isSome = true ↔ s.runState = .faulted

/-- The counters stand to each other as their increments make them (rules R89, R90, R128, R161). -/
def CountersConsistent (s : State) : Prop :=
  s.flushes = s.stalls ∧ s.stalls ≤ s.executed ∧ s.executed ≤ s.cycles ∧ s.cycles ≤ 3 * s.executed

/-- `cycles` never passes the budget by more than one taken branch (rules R21, R83). -/
def OvershootBounded (s : State) : Prop := s.cycles ≤ s.budget + 3

end Sys2Proof.Machine
end

