-- ==== Sys2Proof/Certificates/Slice0/Obligations.lean ====
section
/-! DEFINITION. The statements for the provers. Numbers in a statement (1, 3, 511, …) are the rules' own, not the model's
parameters. A clause that rests on a decision of 92_eei_decisions.md, on a passage the spec marks as derived or as general
knowledge, or on a choice of the model says so in the docstring; four hold throughout: opcode and function numbers are decisions
D5 and D6, that `sub`, `slt`, `mul`, `div` and `addi` are the operations of those names is general knowledge GK6, the cost of
one cycle in `WritesOnly` and `StoresOnly` is decision D21, and the precision and the record in `FaultsAs` are decisions D10 and
D11. -/

open Sys2Proof Sys2Proof.Machine

/-! ## Encoding -/

/-- Decode and encode agree on every well-formed instruction, and a word that spells an instruction is that instruction's encoding:
no bit of a word is dropped. The opcode and function numbers are decisions D5 and D6; that the word 0x0000 is no instruction is
rule R61. Formalises rules R57 and R64 on whole instructions. -/
def Obligations.EncodeAndClassifyAgree : Prop :=
  (∀ i : Instr, i.wellFormed = true → classify (encode i) = .instr i) ∧
    ∀ (w : Word) (i : Instr), classify w = .instr i → encode i = w ∧ i.wellFormed = true

/-- Rules R54 and R57: the field-level Codec gives back every field modulo its width, gives back signed immediates in range, and
re-encoding what `decode` returns gives back the word. -/
def Obligations.CodecRoundTripsFields : Prop :=
  (∀ (F : Format) (f : Fields), ((decodeFields (encodeFields F f)).opcode.toNat : Int) = f.opcode % 16) ∧
  (∀ f : Fields,
    let d := decodeFields (encodeFields .R f)
    (d.rd.toNat : Int) = f.rd % 8 ∧ (d.rs.toNat : Int) = f.rs % 8 ∧ (d.rt.toNat : Int) = f.rt % 8 ∧
      (d.func.toNat : Int) = f.func % 8) ∧
  (∀ f : Fields,
    let d := decodeFields (encodeFields .I f)
    (d.rd.toNat : Int) = f.rd % 8 ∧ (d.rs.toNat : Int) = f.rs % 8 ∧ (d.immI.toNat : Int) = f.imm % 64 ∧
      (-32 ≤ f.imm → f.imm ≤ 31 → sext6 d.immI = f.imm)) ∧
  (∀ f : Fields,
    let d := decodeFields (encodeFields .J f)
    (d.immJ.toNat : Int) = f.imm % 4096 ∧ (-2048 ≤ f.imm → f.imm ≤ 2047 → sext12 d.immJ = f.imm)) ∧
  (∀ w : Word,
    let d := decodeFields w
    let fields (imm : Int) : Fields :=
      { opcode := d.opcode.toNat, rd := d.rd.toNat, rs := d.rs.toNat, rt := d.rt.toNat, func := d.func.toNat, imm := imm }
    encodeFields .R (fields 0) = w ∧ encodeFields .I (fields d.immI.toNat) = w ∧ encodeFields .J (fields d.immJ.toNat) = w)

/-- Which words spell no instruction: the word 0 and nothing else is the sentinel (rule R61), and a word is reserved exactly with
opcode 13 to 15, or opcode 0 and function code 7. The numbers are decisions D5, D6 and D7 (rule R60). -/
def Obligations.SentinelAndReservedWords : Prop :=
  ∀ w : Word,
    (classify w = .sentinel ↔ w = 0) ∧
    ((∃ why, classify w = .reserved why) ↔
      (13 * 4096 ≤ w.toNat ∨ (w.toNat < 4096 ∧ w.toNat % 8 = 7)))

/-- Words written out bit by bit from section 2 of 95_test_vectors.md decode to the instructions they stand for, one or two of each
family (numbers of decisions D5, D6). -/
def Obligations.WrittenOutWordsDecode : Prop :=
  classify 0b0000010000001000 = .instr (.add 2 0 1) ∧
  classify 0b0000001010011110 = .instr (.srlr 1 2 3) ∧
  classify 0b0001011011100000 = .instr (.addi 3 3 0b100000) ∧
  classify 0b1010111111111111 = .instr (.sra 7 7 0b111111) ∧
  classify 0b0100001010000000 = .instr (.lw 1 2 0) ∧
  classify 0b0101001010111111 = .instr (.sw 1 2 0b111111) ∧
  classify 0b0111011100111100 = .instr (.bne 3 4 0b111100) ∧
  classify 0b1011111111111011 = .instr (.jmp 0b111111111011) ∧
  classify 0b1100100000000000 = .instr (.jal 0b100000000000)

/-! ## The step -/

/-- A step runs the decoded instruction: in Running, within the budget and with `pc` inside memory, when the cell at `pc` spells an
instruction, the step is `exec` of that instruction (rules R82, R87). -/
def Obligations.StepRunsFetchedInstruction : Prop :=
  ∀ (s : State) (i : Instr), InBudget s → 0 ≤ s.pc → s.pc ≤ 511 → classify (s.mem.read s.pc.toNat) = .instr i →
    step s = exec i s

/-- When `cycles` exceeds the budget the step ends in TimedOut and changes the run state only, wherever `pc` is and whatever word it
points at (rule R83; the strict test and its place are decision D27). -/
def Obligations.TimeoutComesFirst : Prop :=
  ∀ s : State, s.runState = .running → s.budget < s.cycles → step s = .next { s with runState := .timedOut }

/-- A `pc` outside 0 to 511 faults with FetchOutOfRange and records that `pc` (rules R34, R84, R173; decision D3). -/
def Obligations.FetchOutsideMemoryFaults : Prop :=
  ∀ s : State, InBudget s → (s.pc < 0 ∨ 511 < s.pc) →
    ∃ t, step s = .next t ∧ FaultsAs s t .fetchOutOfRange (.address s.pc)

/-- The halting step changes the run state and nothing else: no counter, no register, no cell, and `pc` stays on the zero word
(rule R85; that `pc` stays is decision D9). -/
def Obligations.HaltChangesOnlyTheRunState : Prop :=
  ∀ s : State, InBudget s → 0 ≤ s.pc → s.pc ≤ 511 → s.mem.read s.pc.toNat = 0 → step s = .next { s with runState := .halted }

/-- A fetched zero word halts, at any fetch address; a zero cell read by `lw` is the number 0, and a zero written by `sw` is an
ordinary store: both complete as `lw` and `sw` do (rules R36, R121, R122; the address sum is decision D32, the stored register decision
D18, the cost decision D21, and that `lw` loads and `sw` stores is general knowledge GK5, log entry 13). -/
def Obligations.ZeroWordHaltsOnFetchOnly : Prop :=
  (∀ s : State, InBudget s → 0 ≤ s.pc → s.pc ≤ 511 → s.mem.read s.pc.toNat = 0 →
    ∃ t, step s = .next t ∧ t.runState = .halted) ∧
  (∀ (s : State) (rd rs : Reg) (imm : Imm6), 0 ≤ effectiveAddress (s.reg rs) imm → effectiveAddress (s.reg rs) imm ≤ 511 →
    s.mem.read (effectiveAddress (s.reg rs) imm).toNat = 0 →
    ∃ t, exec (.lw rd rs imm) s = .next t ∧ WritesOnly s t rd 0) ∧
  (∀ (s : State) (rd rs : Reg) (imm : Imm6), 0 ≤ effectiveAddress (s.reg rs) imm → effectiveAddress (s.reg rs) imm ≤ 511 →
    s.reg rd = 0 →
    ∃ t, exec (.sw rd rs imm) s = .next t ∧ StoresOnly s t (effectiveAddress (s.reg rs) imm).toNat 0)

/-- A fetched reserved word, opcode 13 to 15 or opcode 0 with function code 7, faults with IllegalInstruction and records the word
(rules R60, R88, R174; decision D7). -/
def Obligations.ReservedWordFaults : Prop :=
  ∀ (s : State) (w : Word), InBudget s → 0 ≤ s.pc → s.pc ≤ 511 → s.mem.read s.pc.toNat = w →
    (13 * 4096 ≤ w.toNat ∨ (w.toNat < 4096 ∧ w.toNat % 8 = 7)) →
    ∃ t, step s = .next t ∧ FaultsAs s t .illegalInstruction (.word w)

/-- In Halted, TimedOut and Faulted no state of the block changes (rule R81). That `step` answers the unchanged state there, where the
rule says there is no step, is the model's choice, log entry 2. -/
def Obligations.TerminalStatesStay : Prop := ∀ s : State, s.runState ≠ .running → step s = .next s

/-- Running is initial, and the only transitions of the run state are Running to Running with an instruction executed,
Running to Halted on a fetched zero word, Running to TimedOut with the budget exceeded, and Running to Faulted with one of the five
causes recorded (rules R22, R80, R91; that a cause and the `pc` of the step are recorded is decisions D10 and D11). -/
def Obligations.RunStateTransitions : Prop :=
  State.reset.runState = .running ∧
  ∀ s t : State, step s = .next t →
    (s.runState ≠ .running → t.runState = s.runState) ∧
    (s.runState = .running →
      (t.runState = .running ∧ ∃ i, classify (s.mem.read s.pc.toNat) = .instr i ∧ exec i s = .next t) ∨
      (t.runState = .halted ∧ 0 ≤ s.pc ∧ s.pc ≤ 511 ∧ s.mem.read s.pc.toNat = 0) ∨
      (t.runState = .timedOut ∧ s.budget < s.cycles) ∨
      (t.runState = .faulted ∧ ∃ c info, t.fault = some { cause := c, pc := s.pc, info := info }))

/-- Every step has an answer, and it is a next state: the machine never stops for the host, whatever the state, the word at `pc` and
the operands are (rules R82, R91; that faults and terminal states are next states are log entries 2 and 3). -/
def Obligations.StepAlwaysAnswersNext : Prop := ∀ s : State, ∃ t, step s = .next t

/-- `executed` grows by 1 in a step from Running that ends in Running, and by 0 in every other step (rule R89; decision D31). -/
def Obligations.ExecutedCountsCompletedInstructions : Prop :=
  ∀ s t : State, step s = .next t →
    t.executed = s.executed + if s.runState = .running ∧ t.runState = .running then 1 else 0

/-- A step that enters Faulted changes the run state and the fault record only, and the record holds the `pc` of the step and, for an
address fault, an address outside 0 to 511, for the other causes the fetched word (rules R22, R91, R171; decisions D10, D11). -/
def Obligations.FaultsArePrecise : Prop :=
  ∀ s t : State, step s = .next t → s.runState = .running → t.runState = .faulted →
    ∃ c info, FaultsAs s t c info ∧
      ((c = .fetchOutOfRange ∧ info = .address s.pc ∧ (s.pc < 0 ∨ 511 < s.pc)) ∨
       (c = .memAddressOutOfRange ∧ ∃ a : Int, info = .address a ∧ (a < 0 ∨ 511 < a)) ∨
       ((c = .illegalInstruction ∨ c = .divideByZero ∨ c = .negativeShiftAmount) ∧
         info = .word (s.mem.read s.pc.toNat)))

/-- No step lowers a counter, and no step changes a run parameter (rules R19, R20, R143). -/
def Obligations.CountersGrowAndParametersStay : Prop :=
  ∀ s t : State, step s = .next t →
    (s.cycles ≤ t.cycles ∧ s.executed ≤ t.executed ∧ s.stalls ≤ t.stalls ∧ s.flushes ≤ t.flushes) ∧
    t.budget = s.budget ∧ t.strategy = s.strategy ∧ t.staticCount = s.staticCount

/-- No instruction can read a counter: with other counter values an instruction has the same effect, and adds the same amounts
(rule R20). -/
def Obligations.InstructionsIgnoreCounters : Prop :=
  ∀ (i : Instr) (s t : State) (c e st fl n : Nat), exec i s = .next t →
    exec i { s with cycles := s.cycles + c, executed := s.executed + e, stalls := s.stalls + st,
                    flushes := s.flushes + fl, staticCount := s.staticCount + n } =
      .next { t with cycles := t.cycles + c, executed := t.executed + e, stalls := t.stalls + st,
                     flushes := t.flushes + fl, staticCount := t.staticCount + n }

/-! ## Reset and the invariants -/

/-- Rule R29: after reset every register is 0, `pc` is 0, every cell is 0, the run state is Running, no fault is recorded, the four
counters are 0 and the predictor table is empty. (The run parameters have no reset value in the spec; log entry 1.) -/
def Obligations.ResetValues : Prop :=
  (∀ r : Reg, State.reset.reg r = 0) ∧ State.reset.pc = 0 ∧ (∀ a : Nat, State.reset.mem.read a = 0) ∧
    State.reset.runState = .running ∧ State.reset.fault = none ∧ State.reset.cycles = 0 ∧ State.reset.executed = 0 ∧
    State.reset.stalls = 0 ∧ State.reset.flushes = 0 ∧ ∀ k : BranchKey, tableGet State.reset.bpt k.index = none

/-- The reset state meets every invariant of the machine. -/
def Obligations.ResetMeetsInvariants : Prop :=
  MemoryCanonical .reset ∧ TableLegal .reset ∧ PcInRange .reset ∧ FaultRecorded .reset ∧ CountersConsistent .reset ∧
    OvershootBounded .reset

/-- Every step keeps the memory in its canonical form: no step writes outside the 512 cells (rules R24, R33), and equal memories stay
equal data (log entry 4). -/
def Obligations.StepKeepsMemoryCanonical : Prop :=
  ∀ s t : State, MemoryCanonical s → step s = .next t → MemoryCanonical t

/-- Every step keeps the predictor table legal: at most the 128 keys, every state in the strategy's set, and no entry under the static
strategies (rules R25, R26, R145, R146, R155; decisions D19, D24, D25). -/
def Obligations.StepKeepsTableLegal : Prop :=
  ∀ s t : State, TableLegal s → step s = .next t → TableLegal t

/-- Every step keeps `pc` between -2047 and 2559, so a signed 16-bit integer holds it and nothing ever wraps it (rule R15; decision
D3, log entry 6). -/
def Obligations.StepKeepsPcInRange : Prop :=
  ∀ s t : State, PcInRange s → step s = .next t → PcInRange t

/-- Every step keeps the rule that a fault is recorded exactly in Faulted (rules R22, R29, R91; decisions D10, D11). -/
def Obligations.StepKeepsFaultRecorded : Prop :=
  ∀ s t : State, FaultRecorded s → step s = .next t → FaultRecorded t

/-- Every step keeps the counters consistent: flushes equal stalls, stalls are at most the executed instructions, each of which costs
1 to 3 cycles; and `cycles` never passes the budget by more than 3 (rules R21, R83, R90, R128, R161; decisions D21, D22, D27). -/
def Obligations.StepKeepsCountersConsistent : Prop :=
  (∀ s t : State, CountersConsistent s → step s = .next t → CountersConsistent t) ∧
    ∀ s t : State, OvershootBounded s → step s = .next t → OvershootBounded t

/-! ## Register-format instructions -/

/-- `add` completes, writes the wrapped sum to `rd` and changes nothing else; every word `0000 ddd sss ttt 000` is an `add` but
0x0000, the word of `add $r0, $r0, $r0`, which is the sentinel (rules R61, R101; function code 0 is decision D6). -/
def Obligations.AddWritesWrappedSum : Prop :=
  (∀ rd rs rt : Reg, (0#4 ++ rd ++ rs ++ rt ++ 0#3 : Word) ≠ 0 →
    classify (0#4 ++ rd ++ rs ++ rt ++ 0#3) = .instr (.add rd rs rt)) ∧
  encode (.add 0 0 0) = 0 ∧ classify 0 = .sentinel ∧
  ∀ (rd rs rt : Reg) (s : State),
    ∃ t, exec (.add rd rs rt) s = .next t ∧ WritesOnly s t rd (s.reg rs + s.reg rt)

/-- `sub` completes and writes the wrapped difference, first source minus second (rule R102; the order is decision D34). -/
def Obligations.SubWritesWrappedDifference : Prop :=
  ∀ (rd rs rt : Reg) (s : State),
    ∃ t, exec (.sub rd rs rt) s = .next t ∧ WritesOnly s t rd (s.reg rs - s.reg rt)

/-- `slt` completes and writes 1 when the first source is below the second as signed, else 0 (rule R103; the value 1 is general
knowledge the spec supplies, GK7, and the order decision D34). -/
def Obligations.SltWritesSignedComparison : Prop :=
  ∀ (rd rs rt : Reg) (s : State),
    ∃ t, exec (.slt rd rs rt) s = .next t ∧ WritesOnly s t rd (if (s.reg rs).slt (s.reg rt) then 1 else 0)

/-- `mul` completes and writes the low 16 bits of the product, the same signed or unsigned (rule R104; the width is decision D1). -/
def Obligations.MulWritesLowProduct : Prop :=
  ∀ (rd rs rt : Reg) (s : State),
    ∃ t, exec (.mul rd rs rt) s = .next t ∧ WritesOnly s t rd (s.reg rs * s.reg rt) ∧
      t.reg rd = BitVec.ofNat 16 ((s.reg rs).toNat * (s.reg rt).toNat)

/-- `div` by a divisor that is not 0 completes and writes the quotient rounded toward zero, wrapped to 16 bits (rule R105; the
rounding is decision D13). -/
def Obligations.DivWritesTruncatedQuotient : Prop :=
  ∀ (rd rs rt : Reg) (s : State), s.reg rt ≠ 0 →
    ∃ t, exec (.div rd rs rt) s = .next t ∧
      WritesOnly s t rd (BitVec.ofInt 16 ((s.reg rs).toInt.tdiv (s.reg rt).toInt))

/-- `div` by 0 faults with DivideByZero and records the instruction word (rules R105, R175; decision D12). -/
def Obligations.DivByZeroFaults : Prop :=
  ∀ (rd rs rt : Reg) (s : State), s.reg rt = 0 →
    ∃ t, exec (.div rd rs rt) s = .next t ∧ FaultsAs s t .divideByZero (.word (0#4 ++ rd ++ rs ++ rt ++ 4#3))

/-- `sllr` and `srlr` by an amount of 0 or more complete and write the logically shifted word, 0 for an amount of 16 or more: the
amount is not reduced modulo 16 (rules R106, R107, R108; decision D14). -/
def Obligations.RegisterShiftsWriteShiftedWord : Prop :=
  ∀ (rd rs rt : Reg) (s : State), 0 ≤ (s.reg rt).toInt →
    (∃ t, exec (.sllr rd rs rt) s = .next t ∧ WritesOnly s t rd (s.reg rs <<< (s.reg rt).toNat)) ∧
    ∃ t, exec (.srlr rd rs rt) s = .next t ∧ WritesOnly s t rd (s.reg rs >>> (s.reg rt).toNat)

/-- `sllr` and `srlr` by a negative amount fault with NegativeShiftAmount and record the instruction word (rules R108, R176; decision
D14). -/
def Obligations.NegativeRegisterShiftFaults : Prop :=
  ∀ (rd rs rt : Reg) (s : State), (s.reg rt).toInt < 0 →
    (∃ t, exec (.sllr rd rs rt) s = .next t ∧
      FaultsAs s t .negativeShiftAmount (.word (0#4 ++ rd ++ rs ++ rt ++ 5#3))) ∧
    ∃ t, exec (.srlr rd rs rt) s = .next t ∧
      FaultsAs s t .negativeShiftAmount (.word (0#4 ++ rd ++ rs ++ rt ++ 6#3))

/-! ## Immediate-format instructions -/

/-- `addi` completes and writes the wrapped sum of the source and the sign-extended immediate (rule R111; that `addi` adds is general
knowledge the spec supplies, GK6). -/
def Obligations.AddiWritesWrappedSum : Prop :=
  ∀ (rd rs : Reg) (imm : Imm6) (s : State),
    ∃ t, exec (.addi rd rs imm) s = .next t ∧ WritesOnly s t rd (s.reg rs + imm.signExtend 16)

/-- `li` completes and writes the sign-extended immediate, whatever its unused register field holds (rules R62, R112; decision
D17). -/
def Obligations.LiWritesSignExtendedImmediate : Prop :=
  ∀ (rd unused : Reg) (imm : Imm6) (s : State),
    ∃ t, exec (.li rd unused imm) s = .next t ∧ WritesOnly s t rd (imm.signExtend 16)

/-- `lui` completes and writes the six raw immediate bits to bits 15:10 and 0 to bits 9:0, whatever its unused register field holds
(rules R62, R113; decisions D16, D17). -/
def Obligations.LuiWritesTopBits : Prop :=
  ∀ (rd unused : Reg) (imm : Imm6) (s : State),
    ∃ t, exec (.lui rd unused imm) s = .next t ∧ WritesOnly s t rd (imm ++ 0#10)

/-- `sll`, `srl` and `sra` by an immediate of 0 to 31 complete and write the shifted word; an amount of 16 or more gives 0, and for
`sra` 16 copies of the sign (rules R108, R114 to R117; decisions D14, D15, general knowledge GK1, GK2). -/
def Obligations.ImmediateShiftsWriteShiftedWord : Prop :=
  ∀ (rd rs : Reg) (imm : Imm6) (s : State), imm.toNat ≤ 31 →
    (∃ t, exec (.sll rd rs imm) s = .next t ∧ WritesOnly s t rd (s.reg rs <<< imm.toNat)) ∧
    (∃ t, exec (.srl rd rs imm) s = .next t ∧ WritesOnly s t rd (s.reg rs >>> imm.toNat)) ∧
    ∃ t, exec (.sra rd rs imm) s = .next t ∧ WritesOnly s t rd ((s.reg rs).sshiftRight imm.toNat)

/-- `sll`, `srl` and `sra` with an immediate field of 32 to 63, a negative amount, fault with NegativeShiftAmount and record the
instruction word (rules R114 to R117, R176; decisions D14, D15). -/
def Obligations.NegativeImmediateShiftFaults : Prop :=
  ∀ (rd rs : Reg) (imm : Imm6) (s : State), 32 ≤ imm.toNat →
    (∃ t, exec (.sll rd rs imm) s = .next t ∧ FaultsAs s t .negativeShiftAmount (.word (8#4 ++ rd ++ rs ++ imm))) ∧
    (∃ t, exec (.srl rd rs imm) s = .next t ∧ FaultsAs s t .negativeShiftAmount (.word (9#4 ++ rd ++ rs ++ imm))) ∧
    ∃ t, exec (.sra rd rs imm) s = .next t ∧ FaultsAs s t .negativeShiftAmount (.word (10#4 ++ rd ++ rs ++ imm))

/-! ## Load and store -/

/-- `lw` with an effective address of 0 to 511 completes and writes the whole cell to `rd` (rules R120, R121; the address sum is
decision D32, and that `lw` is the load is general knowledge GK5). -/
def Obligations.LwLoadsCell : Prop :=
  ∀ (rd rs : Reg) (imm : Imm6) (s : State), 0 ≤ (s.reg rs).toInt + imm.toInt → (s.reg rs).toInt + imm.toInt ≤ 511 →
    ∃ t, exec (.lw rd rs imm) s = .next t ∧ WritesOnly s t rd (s.mem.read ((s.reg rs).toInt + imm.toInt).toNat)

/-- `sw` with an effective address of 0 to 511 completes, stores `x[rd]` in that cell and changes no other cell and no register
(rules R33, R120, R122; decisions D18, D32, and that `sw` is the store is general knowledge GK5, log entry 13). -/
def Obligations.SwStoresCell : Prop :=
  ∀ (rd rs : Reg) (imm : Imm6) (s : State), 0 ≤ effectiveAddress (s.reg rs) imm → effectiveAddress (s.reg rs) imm ≤ 511 →
    effectiveAddress (s.reg rs) imm = (s.reg rs).toInt + imm.toInt ∧
    ∃ t, exec (.sw rd rs imm) s = .next t ∧ StoresOnly s t (effectiveAddress (s.reg rs) imm).toNat (s.reg rd)

/-- `lw` and `sw` with an effective address outside 0 to 511 fault with MemAddressOutOfRange, record the exact address, and change
nothing else: the address is not reduced, clamped or counted from the end (rules R91, R120, R123, R172; decisions D10, D11, D32). -/
def Obligations.OutOfRangeAccessFaults : Prop :=
  ∀ (rd rs : Reg) (imm : Imm6) (s : State),
    ((s.reg rs).toInt + imm.toInt < 0 ∨ 511 < (s.reg rs).toInt + imm.toInt) →
    (∃ t, exec (.lw rd rs imm) s = .next t ∧
      FaultsAs s t .memAddressOutOfRange (.address ((s.reg rs).toInt + imm.toInt))) ∧
    ∃ t, exec (.sw rd rs imm) s = .next t ∧
      FaultsAs s t .memAddressOutOfRange (.address ((s.reg rs).toInt + imm.toInt))

/-! ## Branches and jumps -/

/-- Every word `0110 ddd sss iiiiii` is a `beq`; it completes, is taken exactly when the two 16-bit patterns are equal, and
then goes to `pc + 1` plus the displacement for 3 cycles, else to `pc + 1` for 1; a misprediction adds one stall and one flush,
the table is updated with the outcome, and no register and no cell changes (rules R125, R126, R128; decisions D5, D19, D21, D22). -/
def Obligations.BeqBranchesOnEqual : Prop :=
  (∀ (rd rs : Reg) (imm : Imm6), classify (6#4 ++ rd ++ rs ++ imm) = .instr (.beq rd rs imm)) ∧
  ∀ (rd rs : Reg) (imm : Imm6) (s : State),
    ∃ t, exec (.beq rd rs imm) s = .next t ∧
      Branches s t { op := .beq, a := rd, b := rs } imm.toInt (decide (s.reg rd = s.reg rs))

/-- `bne` as `beq`, taken exactly when the two patterns differ (rules R125, R127; general knowledge GK4, decisions D19, D21, D22). -/
def Obligations.BneBranchesOnDifferent : Prop :=
  ∀ (rd rs : Reg) (imm : Imm6) (s : State),
    ∃ t, exec (.bne rd rs imm) s = .next t ∧
      Branches s t { op := .bne, a := rd, b := rs } imm.toInt (decide (s.reg rd ≠ s.reg rs))

/-- Every word `1011 iiiiiiiiiiii` is a `jmp`; it completes with `pc` at `pc + 1` plus the sign-extended displacement,
for 1 cycle, and changes no register, no cell and no predictor entry; a target outside memory makes the next step raise
FetchOutOfRange (rules R84, R130; decisions D5, D21, D33). -/
def Obligations.JmpAddsDisplacement : Prop :=
  (∀ imm : Imm12, classify (11#4 ++ imm) = .instr (.jmp imm)) ∧
  ∀ (imm : Imm12) (s : State),
    ∃ t, exec (.jmp imm) s = .next t ∧ t.pc = s.pc + 1 + imm.toInt ∧ SameRegs s t ∧ SameMemory s t ∧ t.bpt = s.bpt ∧
      Counted s t 1 0 0 ∧ SameRun s t ∧
      (InBudget t → (t.pc < 0 ∨ 511 < t.pc) →
        ∃ u info, step t = .next u ∧ u.runState = .faulted ∧
          u.fault = some { cause := .fetchOutOfRange, pc := t.pc, info := info })

/-- `jal` jumps as `jmp` does and writes the target, not the return address, to register 7 (rule R131; decision D20, conflict C1). -/
def Obligations.JalLinksTheTarget : Prop :=
  ∀ (imm : Imm12) (s : State),
    ∃ t, exec (.jal imm) s = .next t ∧ t.pc = s.pc + 1 + imm.toInt ∧ t.reg 7 = BitVec.ofInt 16 (s.pc + 1 + imm.toInt) ∧
      (∀ r : Reg, r ≠ 7 → t.reg r = s.reg r) ∧ SameMemory s t ∧ t.bpt = s.bpt ∧ Counted s t 1 0 0 ∧ SameRun s t

/-! ## Memory and registers -/

/-- In range, a write is read back, leaves every other address as it was and a read gives the cell; out of range both primitives
raise (rules R32, R33, R40). -/
def Obligations.MemoryReadsLastWrite : Prop :=
  ∀ (m : Memory) (a : Int) (v : Word),
    (0 ≤ a → a ≤ 511 → memRead m a = some (m.read a.toNat) ∧
      ∃ m', memWrite m a v = some m' ∧ memRead m' a = some v ∧ ∀ b : Int, b ≠ a → memRead m' b = memRead m b) ∧
    ((a < 0 ∨ 511 < a) → memRead m a = none ∧ memWrite m a v = none)

/-- A store is seen by a fetch from that address in any later state with that memory: the step there runs the stored word, and halts
if it is 0 (rule R45, which the spec derives from R30 and R43; decisions D18, D32, general knowledge GK5, log entry 13). -/
def Obligations.StoreIsSeenByFetch : Prop :=
  ∀ (rd rs : Reg) (imm : Imm6) (s t u : State), exec (.sw rd rs imm) s = .next t → t.runState ≠ .faulted →
    u.mem = t.mem → u.pc = effectiveAddress (s.reg rs) imm → InBudget u →
    (s.reg rd = 0 → step u = .next { u with runState := .halted }) ∧
    ∀ i, classify (s.reg rd) = .instr i → step u = exec i u

/-- Rule R12: register 0 is ordinary: an instruction that writes it, here `addi` with any source, leaves the result in it, and no
register is hardwired: every register can hold every value. -/
def Obligations.NoRegisterIsHardwired : Prop :=
  (∀ (rs : Reg) (imm : Imm6) (s : State), ∃ t, exec (.addi 0 rs imm) s = .next t ∧ t.reg 0 = s.reg rs + imm.signExtend 16) ∧
  ∀ (regs : Vector Word 8) (r q : Reg) (v : Word),
    (setReg regs r v)[q.toNat]'q.toNat_lt_eight = if q = r then v else regs[q.toNat]'q.toNat_lt_eight

/-! ## The Branch Predictor -/

/-- Under the static strategies the prediction is fixed and neither operation touches the table (rules R145, R146; that no entry is
created is decision D25). -/
def Obligations.StaticStrategiesAreFixed : Prop :=
  ∀ (t : Bpt) (k : BranchKey) (taken : Bool),
    predict .alwaysTaken t k = (true, t) ∧ update .alwaysTaken t k taken = t ∧
    predict .alwaysNotTaken t k = (false, t) ∧ update .alwaysNotTaken t k taken = t

/-- Rule R147: under 1-bit an unseen key predicts taken; after an update the key's entry is the outcome and so is its prediction; no
other key's prediction changes. -/
def Obligations.OneBitPredictsLastOutcome : Prop :=
  ∀ (t : Bpt) (k : BranchKey) (taken : Bool),
    (tableGet t k.index = none → (predict .oneBit t k).1 = true) ∧
    tableGet (update .oneBit t k taken) k.index = some (if taken then 1 else 0) ∧
    (predict .oneBit (update .oneBit t k taken) k).1 = taken ∧
    ∀ q : BranchKey, q ≠ k → (predict .oneBit (update .oneBit t k taken) q).1 = (predict .oneBit t q).1

/-- The 2-bit and 8-state counters start at 2 and 4, predict taken in the upper half, and move one step per outcome, clamped at 0 and
at 3 or 7; no other key's state changes (rules R148 to R152; the numbers are decisions D23, D24). -/
def Obligations.SaturatingCountersMoveOneStep : Prop :=
  ∀ (st : Strategy) (top half : Nat), (st = .twoBit ∧ top = 3 ∧ half = 2) ∨ (st = .eightState ∧ top = 7 ∧ half = 4) →
  ∀ (t : Bpt) (k : BranchKey) (taken : Bool),
    (tableGet t k.index = none → (entryOf st t k).toNat = half) ∧
    ((predict st t k).1 = true ↔ half ≤ (entryOf st t k).toNat) ∧
    (entryOf st (update st t k taken) k).toNat =
      (if taken then min top ((entryOf st t k).toNat + 1) else (entryOf st t k).toNat - 1) ∧
    ∀ q : BranchKey, q ≠ k → entryOf st (update st t k taken) q = entryOf st t q

/-- Rule R155: from every state of the 2-bit and 8-state tables, `k` taken updates give the state `k` higher and `k` not-taken updates
the state `k` lower, clamped at the extremes, so the extremes are reached and kept and no update leaves the state set. -/
def Obligations.SaturationReachesExtremes : Prop :=
  ∀ (st : Strategy) (top : Nat), (st = .twoBit ∧ top = 3) ∨ (st = .eightState ∧ top = 7) →
  ∀ (v : BitVec 3) (k : Nat), v.toNat ≤ top →
    ((fun u => st.advance u true)^[k] v).toNat = min top (v.toNat + k) ∧
    ((fun u => st.advance u false)^[k] v).toNat = v.toNat - k ∧
    (top ≤ k → ((fun u => st.advance u true)^[k] v).toNat = top ∧ ((fun u => st.advance u false)^[k] v).toNat = 0)

/-- Rule R154: two states that differ only in the strategy, the predictor table, `stalls`, `flushes` and the static count stay so
through any number of steps: prediction never changes a register, a cell, `pc`, the run state, `executed` or `cycles`. -/
def Obligations.PredictionNeverChangesResults : Prop :=
  ∀ (n : Nat) (s s' t : State), SameArchitecture s s' → ReachesIn n s t → ∃ t', ReachesIn n s' t' ∧ SameArchitecture t t'

/-- Only `beq` and `bne` touch the predictor table, `stalls` and `flushes` (rules R87, R128; decision D22). -/
def Obligations.OnlyBranchesUseThePredictor : Prop :=
  ∀ (i : Instr) (s t : State), exec i s = .next t → i.mnemonic ≠ .beq → i.mnemonic ≠ .bne →
    t.bpt = s.bpt ∧ t.stalls = s.stalls ∧ t.flushes = s.flushes

/-- Different branch keys have different places among the 128 of the table (rules R25, R142; the key is decision D19). -/
def Obligations.BranchKeysHaveOwnPlaces : Prop :=
  ∀ k q : BranchKey, k.index < 128 ∧ (k.index = q.index → k = q)

/-! ## Runs -/

/-- Every run ends: from any state at most `BUDGET + 2` steps lead to a terminal run state (rule R92, which the spec derives from
R82, R83 and R90). -/
def Obligations.EveryRunEnds : Prop :=
  ∀ s : State, ∃ (n : Nat) (t : State), n ≤ s.budget + 2 ∧ ReachesIn n s t ∧ Ended t

/-- The empty program halts in its first step with `pc` 0 and all counters 0, for every budget and strategy (rule R95 (a); `pc` is
decision D9). -/
def Obligations.EmptyProgramHaltsAtOnce : Prop :=
  ∀ p : RunParameters, ∃ t, step (State.reset.withParameters p) = .next t ∧ SafeEnd t ∧ t.pc = 0 ∧ t.cycles = 0 ∧
    t.executed = 0 ∧ t.stalls = 0 ∧ t.flushes = 0

/-! ## The host's side -/

/-- A run that the loader starts has the program image from address 0, the data image from address 256, zeros elsewhere, the given
parameters and everything else as reset left it; images that do not fit are host errors (rules R38, R184, R190,
R191; decision D30). That a host error is an error value of the loader is the model's choice, log entry 16. -/
def Obligations.LoaderPlacesImages : Prop :=
  ∀ (image : List Word) (data : List Int) (p : RunParameters),
    (image.length ≤ 256 → data.length ≤ 256 →
      ∃ s, startImage image data p = .ok s ∧
        (∀ a : Nat, a < 256 → s.mem.read a = image.getD a 0 ∧ s.mem.read (256 + a) = (data.map (BitVec.ofInt 16)).getD a 0) ∧
        (∀ a : Nat, 512 ≤ a → s.mem.read a = 0) ∧
        { s with mem := [] } = State.reset.withParameters p) ∧
    ((256 < image.length ∨ 256 < data.length) → ∃ e, startImage image data p = .error e)

/-- The metrics are the stated quotients, 0 where the denominator is 0; the worked example gives 10/12, 80 and 12/14; and
at every point of a run `stalls` is at most `executed`, so the accuracy is never negative (rule R161; the last clause holds by
`STALL_MISPREDICT = 1`, decision D22, log entry 5). -/
def Obligations.ReporterMetrics : Prop :=
  (∀ n c : Nat, c ≠ 0 → ipc n c = (n : Rat) / c) ∧ (∀ n : Nat, ipc n 0 = 0) ∧
  (∀ n st : Nat, n ≠ 0 → accuracy n st = ((n : Rat) - st) / n * 100) ∧ (∀ st : Nat, accuracy 0 st = 0) ∧
  (∀ c st : Nat, c + st ≠ 0 → speedup c st = (c : Rat) / (c + st)) ∧ speedup 0 0 = 0 ∧
  ipc 10 12 = 10 / 12 ∧ accuracy 10 2 = 80 ∧ speedup 12 2 = 12 / 14 ∧
  ∀ (image : List Word) (data : List Int) (p : RunParameters) (s t : State) (n : Nat),
    startImage image data p = .ok s → ReachesIn n s t → t.stalls ≤ t.executed ∧ 0 ≤ accuracy t.executed t.stalls

/-- What assembly in one traversal with back-patching produces: at most 256 words, one per instruction line in order, in which every
operand that names a label holds the displacement from the line's own address to the address of the label, and every label used is
defined (rules R69 to R71, R73). That a label defined twice is refused is the model's choice, log entry 14. -/
def Obligations.AssembledLabelsResolve : Prop :=
  ∀ (ls : List Line) (image : List Word), assembleLines ls = .ok image →
    image.length ≤ 256 ∧ image.length = (instructionLines ls).length ∧
    ∀ (k : Nat) (d : Draft), (instructionLines ls)[k]? = some d →
      (d.label = none → image[k]? = some d.word) ∧
      ∀ name, d.label = some name →
        ∃ target, labelAddressFrom name 0 ls = some target ∧
          image[k]? = some ({ d with imm := (target : Int) - k - 1 }.word)
end

