-- ==== Sys2Proof/Laws/Codec.lean ====
section
/-! SUPPORT. The layouts and the field reads as arithmetic on naturals, and the opcode map's small facts. -/

namespace Sys2Proof

theorem append_toNat {m n : Nat} (x : BitVec m) (y : BitVec n) : (x ++ y).toNat = x.toNat * 2 ^ n + y.toNat := by
  rw [BitVec.toNat_append, ← Nat.shiftLeft_add_eq_or_of_lt y.isLt, Nat.shiftLeft_eq]

/-- The R layout as a number (rule R52). -/
theorem rWord_toNat (o : BitVec 4) (d s t : Reg) (f : BitVec 3) :
    (rWord o d s t f).toNat = o.toNat * 4096 + d.toNat * 512 + s.toNat * 64 + t.toNat * 8 + f.toNat := by
  show (o ++ d ++ s ++ t ++ f).toNat = _
  simp only [append_toNat]; omega

/-- The I layout as a number (rule R52). -/
theorem iWord_toNat (o : BitVec 4) (d s : Reg) (imm : Imm6) :
    (iWord o d s imm).toNat = o.toNat * 4096 + d.toNat * 512 + s.toNat * 64 + imm.toNat := by
  show (o ++ d ++ s ++ imm).toNat = _
  simp only [append_toNat]; omega

/-- The J layout as a number (rule R52). -/
theorem jWord_toNat (o : BitVec 4) (imm : Imm12) : (jWord o imm).toNat = o.toNat * 4096 + imm.toNat := by
  show (o ++ imm).toNat = _
  simp only [append_toNat]; omega

theorem extract_toNat (w : Word) (lo len : Nat) : (w.extractLsb' lo len).toNat = w.toNat / 2 ^ lo % 2 ^ len := by
  rw [BitVec.extractLsb'_toNat, Nat.shiftRight_eq_div_pow]

theorem decodeFields_opcode (w : Word) : (decodeFields w).opcode.toNat = w.toNat / 4096 := by
  have := w.isLt
  show (w.extractLsb' 12 4).toNat = _
  rw [extract_toNat]; omega

theorem decodeFields_rd (w : Word) : (decodeFields w).rd.toNat = w.toNat / 512 % 8 := extract_toNat w 9 3
theorem decodeFields_rs (w : Word) : (decodeFields w).rs.toNat = w.toNat / 64 % 8 := extract_toNat w 6 3
theorem decodeFields_rt (w : Word) : (decodeFields w).rt.toNat = w.toNat / 8 % 8 := extract_toNat w 3 3
theorem decodeFields_func (w : Word) : (decodeFields w).func.toNat = w.toNat % 8 := by
  show (w.extractLsb' 0 3).toNat = _
  rw [extract_toNat]; simp
theorem decodeFields_immI (w : Word) : (decodeFields w).immI.toNat = w.toNat % 64 := by
  show (w.extractLsb' 0 6).toNat = _
  rw [extract_toNat]; simp
theorem decodeFields_immJ (w : Word) : (decodeFields w).immJ.toNat = w.toNat % 4096 := by
  show (w.extractLsb' 0 12).toNat = _
  rw [extract_toNat]; simp

/-- What `classify` can answer. -/
theorem classify_cases (w : Word) :
    (w = 0 ∧ classify w = .sentinel) ∨
      (w ≠ 0 ∧ ∃ m, mnemonicAt (decodeFields w).opcode (decodeFields w).func = some m ∧
        classify w = .instr (Instr.ofFields (decodeFields w) m)) ∨
      (w ≠ 0 ∧ mnemonicAt (decodeFields w).opcode (decodeFields w).func = none ∧ ∃ why, classify w = .reserved why) := by
  unfold classify
  by_cases h : w = 0
  · exact .inl ⟨h, by simp [h]⟩
  · cases hm : mnemonicAt (decodeFields w).opcode (decodeFields w).func with
    | none => exact .inr (.inr ⟨h, rfl, _, if_neg h⟩)
    | some m => exact .inr (.inl ⟨h, m, rfl, if_neg h⟩)

end Sys2Proof
end

