-- ==== Sys2Proof/Laws/Memory.lean ====
section
/-! SUPPORT. What the table and memory operations do: one read lemma and one canonical-form lemma each. -/

namespace Sys2Proof.Machine

/-! ## Tables -/

theorem tableGet_set {α : Type} (t : List (Nat × α)) (a b : Nat) (x : α) :
    tableGet (tableSet t a x) b = if b = a then some x else tableGet t b := by
  induction t with
  | nil =>
    by_cases h : b = a
    · simp [tableSet, tableGet, h]
    · simp [tableSet, tableGet, h, Ne.symm h]
  | cons p t ih =>
    obtain ⟨k, v⟩ := p
    unfold tableSet
    by_cases hlt : a < k
    · by_cases h : b = a
      · simp [tableGet, hlt, h]
      · simp [tableGet, hlt, h, Ne.symm h]
    · by_cases hak : a = k
      · subst hak
        by_cases h : b = a
        · simp [tableGet, h]
        · simp [tableGet, h, Ne.symm h]
      · simp only [hlt, hak, if_false, tableGet, ih]
        by_cases hkb : k = b
        · subst hkb; simp [Ne.symm hak]
        · simp [hkb]

theorem tableGet_erase {α : Type} (t : List (Nat × α)) (a b : Nat) :
    tableGet (tableErase t a) b = if b = a then none else tableGet t b := by
  induction t with
  | nil => simp [tableErase, tableGet]
  | cons p t ih =>
    obtain ⟨k, v⟩ := p
    by_cases hka : k = a
    · subst hka
      by_cases h : b = k
      · subst h; simp [tableErase, ih]
      · simp [tableErase, tableGet, ih, h, Ne.symm h]
    · by_cases hkb : k = b
      · subst hkb; simp [tableErase, tableGet, hka]
      · simp [tableErase, tableGet, hka, hkb, ih]

theorem tableSorted_iff {α : Type} (t : List (Nat × α)) :
    tableSorted t = true ↔ t.Pairwise (fun x y => x.1 < y.1) := by simp [tableSorted]

theorem mem_tableSet {α : Type} {t : List (Nat × α)} {a : Nat} {x : α} {p : Nat × α} (h : p ∈ tableSet t a x) :
    p = (a, x) ∨ p ∈ t := by
  induction t with
  | nil => simpa [tableSet] using h
  | cons q t ih =>
    obtain ⟨k, v⟩ := q
    unfold tableSet at h
    split at h
    · simpa using h
    · split at h
      · rcases List.mem_cons.1 h with h | h
        · exact .inl h
        · exact .inr (List.mem_cons_of_mem _ h)
      · rcases List.mem_cons.1 h with h | h
        · exact .inr (by simp [h])
        · rcases ih h with h | h
          · exact .inl h
          · exact .inr (List.mem_cons_of_mem _ h)

theorem tableErase_sublist {α : Type} (t : List (Nat × α)) (a : Nat) : (tableErase t a).Sublist t := by
  induction t with
  | nil => simp [tableErase]
  | cons p t ih =>
    obtain ⟨k, v⟩ := p
    unfold tableErase
    split
    · exact ih.cons _
    · exact ih.cons_cons _

theorem tableSet_sorted {α : Type} {t : List (Nat × α)} (a : Nat) (x : α)
    (h : t.Pairwise (fun x y => x.1 < y.1)) : (tableSet t a x).Pairwise (fun x y => x.1 < y.1) := by
  induction t with
  | nil => simp [tableSet]
  | cons p t ih =>
    obtain ⟨k, v⟩ := p
    have hk := List.pairwise_cons.1 h
    unfold tableSet
    split
    · rename_i hlt
      refine List.pairwise_cons.2 ⟨fun q hq => ?_, h⟩
      rcases List.mem_cons.1 hq with rfl | hq
      · exact hlt
      · exact Nat.lt_trans hlt (hk.1 q hq)
    · split
      · rename_i _ heq
        subst heq
        exact List.pairwise_cons.2 ⟨fun q hq => hk.1 q hq, hk.2⟩
      · rename_i hlt hne
        refine List.pairwise_cons.2 ⟨fun q hq => ?_, ih hk.2⟩
        rcases mem_tableSet hq with rfl | hq
        · show k < a; omega
        · exact hk.1 q hq

theorem tableGet_some_mem {α : Type} {t : List (Nat × α)} {a : Nat} {x : α} (h : tableGet t a = some x) : (a, x) ∈ t := by
  induction t with
  | nil => simp [tableGet] at h
  | cons p t ih =>
    obtain ⟨k, v⟩ := p
    unfold tableGet at h
    split at h
    · rename_i hk
      simp only [Option.some.injEq] at h
      simp [hk, h]
    · exact List.mem_cons_of_mem _ (ih h)

/-! ## Memory -/

theorem Memory.read_write (m : Memory) (a b : Nat) (v : Word) :
    (m.write a v).read b = if b = a then v else m.read b := by
  unfold Memory.write Memory.read
  by_cases hv : v = 0
  · simp only [hv, if_true, tableGet_erase]
    by_cases h : b = a <;> simp [h]
  · simp only [hv, if_false, tableGet_set]
    by_cases h : b = a <;> simp [h]

@[simp] theorem Memory.read_nil (a : Nat) : Memory.read [] a = 0 := rfl

theorem Memory.wf_iff (m : Memory) :
    m.wf = true ↔ m.Pairwise (fun x y => x.1 < y.1) ∧ ∀ c ∈ m, c.1 < 512 ∧ c.2 ≠ 0 := by
  simp only [Memory.wf, Bool.and_eq_true, tableSorted_iff, List.all_eq_true, decide_eq_true_eq, bne_iff_ne]
  rfl

/-- Every write inside the array keeps the canonical form. -/
theorem Memory.write_wf {m : Memory} {a : Nat} {v : Word} (h : m.wf = true) (ha : a < 512) : (m.write a v).wf = true := by
  rw [Memory.wf_iff] at h ⊢
  unfold Memory.write
  split
  · exact ⟨h.1.sublist (tableErase_sublist m a), fun c hc => h.2 c ((tableErase_sublist m a).subset hc)⟩
  · rename_i hv
    refine ⟨tableSet_sorted a v h.1, fun c hc => ?_⟩
    rcases mem_tableSet hc with rfl | hc
    · exact ⟨ha, hv⟩
    · exact h.2 c hc

theorem inArray_iff (addr : Int) : inArray addr = true ↔ 0 ≤ addr ∧ addr < 512 := by
  simp only [inArray, Bool.and_eq_true, decide_eq_true_eq]
  rfl

/-- What `MemRead` can answer. -/
theorem memRead_cases (m : Memory) (addr : Int) :
    (0 ≤ addr ∧ addr < 512 ∧ memRead m addr = some (m.read addr.toNat)) ∨
      ((addr < 0 ∨ 512 ≤ addr) ∧ memRead m addr = none) := by
  unfold memRead
  by_cases h : inArray addr = true
  · have := (inArray_iff addr).1 h
    exact .inl ⟨this.1, this.2, by simp [h]⟩
  · have : ¬(0 ≤ addr ∧ addr < 512) := fun hc => h ((inArray_iff addr).2 hc)
    exact .inr ⟨by omega, by simp [h]⟩

/-- What `MemWrite` can answer. -/
theorem memWrite_cases (m : Memory) (addr : Int) (v : Word) :
    (0 ≤ addr ∧ addr < 512 ∧ memWrite m addr v = some (m.write addr.toNat v)) ∨
      ((addr < 0 ∨ 512 ≤ addr) ∧ memWrite m addr v = none) := by
  unfold memWrite
  by_cases h : inArray addr = true
  · have := (inArray_iff addr).1 h
    exact .inl ⟨this.1, this.2, by simp [h]⟩
  · have : ¬(0 ≤ addr ∧ addr < 512) := fun hc => h ((inArray_iff addr).2 hc)
    exact .inr ⟨by omega, by simp [h]⟩

/-- What `Fetch` can answer. -/
theorem fetch_cases (m : Memory) (addr : Int) :
    (0 ≤ addr ∧ addr ≤ 511 ∧ fetch m addr = some (m.read addr.toNat)) ∨
      ((addr < 0 ∨ 511 < addr) ∧ fetch m addr = none) := by
  unfold fetch fetchMax
  by_cases h : 0 ≤ addr ∧ addr ≤ 511
  · exact .inl ⟨h.1, h.2, by simp [h]⟩
  · exact .inr ⟨by omega, by rw [if_neg h]⟩

end Sys2Proof.Machine
end

