-- ==== Sys2Proof/Laws/State.lean ====
section
/-! SUPPORT. One lemma per field per state update, so that no later proof unfolds a record update. -/

namespace Sys2Proof.Machine

/-! ## Registers -/

theorem setReg_read (regs : Vector Word 8) (r q : Reg) (v : Word) :
    (setReg regs r v)[q.toNat]'q.toNat_lt_eight = if q = r then v else regs[q.toNat]'q.toNat_lt_eight := by
  unfold setReg
  rw [Vector.getElem_set]
  by_cases h : q = r
  · subst h; simp
  · have : r.toNat ≠ q.toNat := fun hn => h (BitVec.eq_of_toNat_eq hn.symm)
    simp [h, this]

/-- Registers are equal data when every register reads the same. -/
theorem regs_ext {s t : State} (h : ∀ r : Reg, t.reg r = s.reg r) : t.regs = s.regs := by
  apply Vector.ext
  intro i hi
  have h1 := h (BitVec.ofNat 3 i)
  have h2 : (BitVec.ofNat 3 i).toNat = i := by simp; omega
  simp only [State.reg, h2] at h1
  exact h1

@[simp] theorem State.reg_reset (r : Reg) : State.reset.reg r = 0 := by
  simp [State.reg, State.reset]

/-! ## raise -/

@[simp] theorem State.raise_runState (s : State) (c : FaultCause) (i : FaultInfo) : (s.raise c i).runState = .faulted := rfl
@[simp] theorem State.raise_fault (s : State) (c : FaultCause) (i : FaultInfo) :
    (s.raise c i).fault = some { cause := c, pc := s.pc, info := i } := rfl
@[simp] theorem State.raise_regs (s : State) (c : FaultCause) (i : FaultInfo) : (s.raise c i).regs = s.regs := rfl
@[simp] theorem State.raise_reg (s : State) (c : FaultCause) (i : FaultInfo) (r : Reg) : (s.raise c i).reg r = s.reg r := rfl
@[simp] theorem State.raise_pc (s : State) (c : FaultCause) (i : FaultInfo) : (s.raise c i).pc = s.pc := rfl
@[simp] theorem State.raise_mem (s : State) (c : FaultCause) (i : FaultInfo) : (s.raise c i).mem = s.mem := rfl
@[simp] theorem State.raise_bpt (s : State) (c : FaultCause) (i : FaultInfo) : (s.raise c i).bpt = s.bpt := rfl
@[simp] theorem State.raise_cycles (s : State) (c : FaultCause) (i : FaultInfo) : (s.raise c i).cycles = s.cycles := rfl
@[simp] theorem State.raise_executed (s : State) (c : FaultCause) (i : FaultInfo) : (s.raise c i).executed = s.executed := rfl
@[simp] theorem State.raise_stalls (s : State) (c : FaultCause) (i : FaultInfo) : (s.raise c i).stalls = s.stalls := rfl
@[simp] theorem State.raise_flushes (s : State) (c : FaultCause) (i : FaultInfo) : (s.raise c i).flushes = s.flushes := rfl
@[simp] theorem State.raise_budget (s : State) (c : FaultCause) (i : FaultInfo) : (s.raise c i).budget = s.budget := rfl
@[simp] theorem State.raise_strategy (s : State) (c : FaultCause) (i : FaultInfo) : (s.raise c i).strategy = s.strategy := rfl
@[simp] theorem State.raise_staticCount (s : State) (c : FaultCause) (i : FaultInfo) :
    (s.raise c i).staticCount = s.staticCount := rfl

/-! ## halt and timeOut -/

@[simp] theorem State.halt_runState (s : State) : s.halt.runState = .halted := rfl
@[simp] theorem State.halt_fault (s : State) : s.halt.fault = s.fault := rfl
@[simp] theorem State.halt_regs (s : State) : s.halt.regs = s.regs := rfl
@[simp] theorem State.halt_reg (s : State) (r : Reg) : s.halt.reg r = s.reg r := rfl
@[simp] theorem State.halt_pc (s : State) : s.halt.pc = s.pc := rfl
@[simp] theorem State.halt_mem (s : State) : s.halt.mem = s.mem := rfl
@[simp] theorem State.halt_bpt (s : State) : s.halt.bpt = s.bpt := rfl
@[simp] theorem State.halt_cycles (s : State) : s.halt.cycles = s.cycles := rfl
@[simp] theorem State.halt_executed (s : State) : s.halt.executed = s.executed := rfl
@[simp] theorem State.halt_stalls (s : State) : s.halt.stalls = s.stalls := rfl
@[simp] theorem State.halt_flushes (s : State) : s.halt.flushes = s.flushes := rfl
@[simp] theorem State.halt_budget (s : State) : s.halt.budget = s.budget := rfl
@[simp] theorem State.halt_strategy (s : State) : s.halt.strategy = s.strategy := rfl
@[simp] theorem State.halt_staticCount (s : State) : s.halt.staticCount = s.staticCount := rfl

@[simp] theorem State.timeOut_runState (s : State) : s.timeOut.runState = .timedOut := rfl
@[simp] theorem State.timeOut_fault (s : State) : s.timeOut.fault = s.fault := rfl
@[simp] theorem State.timeOut_regs (s : State) : s.timeOut.regs = s.regs := rfl
@[simp] theorem State.timeOut_reg (s : State) (r : Reg) : s.timeOut.reg r = s.reg r := rfl
@[simp] theorem State.timeOut_pc (s : State) : s.timeOut.pc = s.pc := rfl
@[simp] theorem State.timeOut_mem (s : State) : s.timeOut.mem = s.mem := rfl
@[simp] theorem State.timeOut_bpt (s : State) : s.timeOut.bpt = s.bpt := rfl
@[simp] theorem State.timeOut_cycles (s : State) : s.timeOut.cycles = s.cycles := rfl
@[simp] theorem State.timeOut_executed (s : State) : s.timeOut.executed = s.executed := rfl
@[simp] theorem State.timeOut_stalls (s : State) : s.timeOut.stalls = s.stalls := rfl
@[simp] theorem State.timeOut_flushes (s : State) : s.timeOut.flushes = s.flushes := rfl
@[simp] theorem State.timeOut_budget (s : State) : s.timeOut.budget = s.budget := rfl
@[simp] theorem State.timeOut_strategy (s : State) : s.timeOut.strategy = s.strategy := rfl
@[simp] theorem State.timeOut_staticCount (s : State) : s.timeOut.staticCount = s.staticCount := rfl

/-! ## commit -/

@[simp] theorem State.commit_reg (s : State) (e : Effect) (q : Reg) :
    (s.commit e).reg q =
      match e.reg with
      | some (r, v) => if q = r then v else s.reg q
      | none => s.reg q := by
  unfold State.commit State.reg
  cases h : e.reg with
  | none => rfl
  | some p => exact setReg_read s.regs p.1 q p.2

@[simp] theorem State.commit_pc (s : State) (e : Effect) : (s.commit e).pc = e.newPc := rfl
@[simp] theorem State.commit_mem (s : State) (e : Effect) : (s.commit e).mem = e.mem.getD s.mem := rfl
@[simp] theorem State.commit_bpt (s : State) (e : Effect) : (s.commit e).bpt = e.bpt.getD s.bpt := rfl
@[simp] theorem State.commit_runState (s : State) (e : Effect) : (s.commit e).runState = s.runState := rfl
@[simp] theorem State.commit_fault (s : State) (e : Effect) : (s.commit e).fault = s.fault := rfl
@[simp] theorem State.commit_budget (s : State) (e : Effect) : (s.commit e).budget = s.budget := rfl
@[simp] theorem State.commit_strategy (s : State) (e : Effect) : (s.commit e).strategy = s.strategy := rfl
@[simp] theorem State.commit_staticCount (s : State) (e : Effect) : (s.commit e).staticCount = s.staticCount := rfl
@[simp] theorem State.commit_executed (s : State) (e : Effect) : (s.commit e).executed = s.executed + 1 := rfl
@[simp] theorem State.commit_cycles (s : State) (e : Effect) : (s.commit e).cycles = s.cycles + e.cost := by
  unfold State.commit cycMispredict; simp
@[simp] theorem State.commit_stalls (s : State) (e : Effect) :
    (s.commit e).stalls = s.stalls + if e.mispredicted then 1 else 0 := rfl
@[simp] theorem State.commit_flushes (s : State) (e : Effect) :
    (s.commit e).flushes = s.flushes + if e.mispredicted then 1 else 0 := rfl
@[simp] theorem State.npc_eq (s : State) : s.npc = s.pc + 1 := rfl

/-! ## readied and withWordAtPc -/

@[simp] theorem State.withWordAtPc_regs (s : State) (w : Word) : (s.withWordAtPc w).regs = s.regs := rfl
@[simp] theorem State.withWordAtPc_runState (s : State) (w : Word) : (s.withWordAtPc w).runState = .running := rfl
@[simp] theorem State.withWordAtPc_fault (s : State) (w : Word) : (s.withWordAtPc w).fault = none := rfl
@[simp] theorem State.withWordAtPc_budget (s : State) (w : Word) : (s.withWordAtPc w).budget = max s.budget s.cycles := rfl
@[simp] theorem State.withWordAtPc_cycles (s : State) (w : Word) : (s.withWordAtPc w).cycles = s.cycles := rfl
@[simp] theorem State.withWordAtPc_pc (s : State) (w : Word) :
    (s.withWordAtPc w).pc = if inArray s.pc then s.pc else 0 := rfl
@[simp] theorem State.withWordAtPc_mem (s : State) (w : Word) :
    (s.withWordAtPc w).mem = s.mem.write (if inArray s.pc then s.pc else 0).toNat w := rfl

end Sys2Proof.Machine
end

