-- ==== Sys2Proof/Laws/Machine.lean ====
section
/-! SUPPORT. What each shared operation, `exec` and `step` can answer, said once. -/

namespace Sys2Proof.Machine

/-- What a result-writing operation that may fault can answer. -/
theorem writeResultOr_cases (s : State) (i : Instr) (c : FaultCause) (rd : Reg) (r : Option Word) :
    (∃ v, r = some v ∧ writeResultOr s i c rd r = writeResult s rd v) ∨
      (r = none ∧ writeResultOr s i c rd r = .next (s.raise c (.word (encode i)))) := by
  cases r with
  | none => exact .inr ⟨rfl, rfl⟩
  | some v => exact .inl ⟨v, rfl, rfl⟩

/-- What an instruction can do at all: it completes with an effect of one of four shapes (a plain result, a store, a branch, a jump),
or it raises one of the three instruction faults. -/
inductive ExecShape (s : State) : State → Prop where
  | result (rd : Reg) (v : Word) : ExecShape s (s.commit { reg := some (rd, v), newPc := s.npc, cost := cycPlain })
  | store (a : Int) (v : Word) (h : 0 ≤ a ∧ a < 512) :
      ExecShape s (s.commit { mem := some (s.mem.write a.toNat v), newPc := s.npc, cost := cycPlain })
  | branch (key : BranchKey) (imm : Imm6) (taken : Bool) :
      ExecShape s (s.commit
        { newPc := if taken then s.npc + sext6 imm else s.npc
          cost := if taken then cycBrTaken else cycBrNotTaken
          mispredicted := (predict s.strategy s.bpt key).1 != taken
          bpt := some (update s.strategy (predict s.strategy s.bpt key).2 key taken) })
  | jump (imm : Imm12) (link : Option (Reg × Word)) :
      ExecShape s (s.commit { reg := link, newPc := s.npc + sext12 imm, cost := cycPlain })
  | faults (c : FaultCause) (info : FaultInfo) (h : c ≠ .fetchOutOfRange ∧ c ≠ .illegalInstruction) : ExecShape s (s.raise c info)

theorem writeResult_shape (s : State) (rd : Reg) (v : Word) : ∃ t, writeResult s rd v = .next t ∧ ExecShape s t :=
  ⟨_, rfl, .result rd v⟩

theorem writeResultOr_shape (s : State) (i : Instr) (c : FaultCause) (rd : Reg) (r : Option Word)
    (h : c ≠ .fetchOutOfRange ∧ c ≠ .illegalInstruction) : ∃ t, writeResultOr s i c rd r = .next t ∧ ExecShape s t := by
  cases r with
  | none => exact ⟨_, rfl, .faults c _ h⟩
  | some v => exact writeResult_shape s rd v

/-- `exec` answers a next state for every instruction in every state, and one of the shapes above. -/
theorem exec_shape (i : Instr) (s : State) : ∃ t, exec i s = .next t ∧ ExecShape s t := by
  cases i with
  | add rd rs rt => exact writeResult_shape s rd _
  | sub rd rs rt => exact writeResult_shape s rd _
  | slt rd rs rt => exact writeResult_shape s rd _
  | mul rd rs rt => exact writeResult_shape s rd _
  | div rd rs rt => exact writeResultOr_shape s _ _ rd _ (by decide)
  | sllr rd rs rt => exact writeResultOr_shape s _ _ rd _ (by decide)
  | srlr rd rs rt => exact writeResultOr_shape s _ _ rd _ (by decide)
  | addi rd rs imm => exact writeResult_shape s rd _
  | li rd rs imm => exact writeResult_shape s rd _
  | lui rd rs imm => exact writeResult_shape s rd _
  | lw rd rs imm =>
    simp only [exec, execLw]
    rcases memRead_cases s.mem (effectiveAddress (s.reg rs) imm) with ⟨_, _, h⟩ | ⟨_, h⟩ <;> rw [h]
    · exact writeResult_shape s rd _
    · exact ⟨_, rfl, .faults _ _ (by decide)⟩
  | sw rd rs imm =>
    simp only [exec, execSw]
    rcases memWrite_cases s.mem (effectiveAddress (s.reg rs) imm) (s.reg rd) with ⟨h1, h2, h⟩ | ⟨_, h⟩ <;> rw [h]
    · exact ⟨_, rfl, .store _ _ ⟨h1, h2⟩⟩
    · exact ⟨_, rfl, .faults _ _ (by decide)⟩
  | beq rd rs imm => exact ⟨_, rfl, .branch _ imm _⟩
  | bne rd rs imm => exact ⟨_, rfl, .branch _ imm _⟩
  | sll rd rs imm => exact writeResultOr_shape s _ _ rd _ (by decide)
  | srl rd rs imm => exact writeResultOr_shape s _ _ rd _ (by decide)
  | sra rd rs imm => exact writeResultOr_shape s _ _ rd _ (by decide)
  | jmp imm => exact ⟨_, rfl, .jump imm none⟩
  | jal imm => exact ⟨_, rfl, .jump imm _⟩

/-- What a step can do: nothing in a terminal run state; a timeout, a fetch fault, a halt, an illegal-instruction fault, or the
execution of the fetched instruction. -/
theorem step_cases {s t : State} (h : step s = .next t) :
    (s.runState ≠ .running ∧ t = s) ∨
    (s.runState = .running ∧ s.budget < s.cycles ∧ t = s.timeOut) ∨
    (s.runState = .running ∧ s.cycles ≤ s.budget ∧
      (((s.pc < 0 ∨ 511 < s.pc) ∧ t = s.raise .fetchOutOfRange (.address s.pc)) ∨
       (0 ≤ s.pc ∧ s.pc ≤ 511 ∧
         ((classify (s.mem.read s.pc.toNat) = .sentinel ∧ t = s.halt) ∨
          (∃ why, classify (s.mem.read s.pc.toNat) = .reserved why ∧
            t = s.raise .illegalInstruction (.word (s.mem.read s.pc.toNat))) ∨
          (∃ i, classify (s.mem.read s.pc.toNat) = .instr i ∧ exec i s = .next t))))) := by
  unfold step stepOf at h
  cases hr : s.runState <;> simp only [hr] at h
  · unfold runningStep at h
    by_cases hb : s.budget < s.cycles
    · rw [if_pos hb] at h
      exact .inr (.inl ⟨rfl, hb, by injection h with h; exact h.symm⟩)
    · rw [if_neg hb] at h
      refine .inr (.inr ⟨rfl, Nat.le_of_not_lt hb, ?_⟩)
      rcases fetch_cases s.mem s.pc with ⟨h0, h1, hf⟩ | ⟨h0, hf⟩ <;> rw [hf] at h
      · refine .inr ⟨h0, h1, ?_⟩
        simp only [runWord] at h
        cases hc : classify (s.mem.read s.pc.toNat) with
        | sentinel => rw [hc] at h; injection h with h; exact .inl ⟨rfl, h.symm⟩
        | reserved why => rw [hc] at h; injection h with h; exact .inr (.inl ⟨why, rfl, h.symm⟩)
        | instr i => rw [hc] at h; exact .inr (.inr ⟨i, rfl, h⟩)
      · injection h with h; exact .inl ⟨h0, h.symm⟩
  all_goals injection h with h; exact .inl ⟨by simp, h.symm⟩

end Sys2Proof.Machine
end

