-- ==== Sys2Proof/Laws/PerInstr.lean ====
section
/-! SUPPORT. The family TableMatch: the word of every instruction has, in the bits that its row of spec/opcode_table.json fixes, the
values the row gives them. The values below are the rows' own ("fixed"), not the model's tables. -/

namespace Sys2Proof.Laws

/-- The fixed bits of a row: bits 15:12, and bits 2:0 where the row fixes them. -/
def fixedBits : Mnemonic → Nat × Option Nat
  | .add => (0, some 0)
  | .sub => (0, some 1)
  | .slt => (0, some 2)
  | .mul => (0, some 3)
  | .div => (0, some 4)
  | .sllr => (0, some 5)
  | .srlr => (0, some 6)
  | .addi => (1, none)
  | .li => (2, none)
  | .lui => (3, none)
  | .lw => (4, none)
  | .sw => (5, none)
  | .beq => (6, none)
  | .bne => (7, none)
  | .sll => (8, none)
  | .srl => (9, none)
  | .sra => (10, none)
  | .jmp => (11, none)
  | .jal => (12, none)

/-- The word of the instruction has its row's fixed bits. -/
def TableMatch.Statement (i : Instr) : Prop :=
  (encode i).toNat / 4096 = (fixedBits i.mnemonic).1 ∧ ∀ f, (fixedBits i.mnemonic).2 = some f → (encode i).toNat % 8 = f

theorem registerRow {m : Mnemonic} {o f : Nat} {i : Instr} {rd rs rt : Reg} (he : encode i = encodeR m rd rs rt)
    (hb : fixedBits i.mnemonic = (o, some f)) (ho : (opcodeOf m).toNat = o) (hf : ((functionOf m).getD 0).toNat = f) :
    TableMatch.Statement i := by
  have := rd.isLt
  have := rs.isLt
  have := rt.isLt
  have := ((functionOf m).getD 0).isLt
  unfold TableMatch.Statement
  rw [he, hb, encodeR, rWord_toNat, ho]
  constructor
  · show _ = o; omega
  · intro g hg; injection hg with hg; omega

theorem immediateRow {m : Mnemonic} {o : Nat} {i : Instr} {rd rs : Reg} {imm : Imm6} (he : encode i = encodeI m rd rs imm)
    (hb : fixedBits i.mnemonic = (o, none)) (ho : (opcodeOf m).toNat = o) : TableMatch.Statement i := by
  have := rd.isLt
  have := rs.isLt
  have := imm.isLt
  unfold TableMatch.Statement
  rw [he, hb, encodeI, iWord_toNat, ho]
  constructor
  · show _ = o; omega
  · intro g hg; cases hg

theorem jumpRow {m : Mnemonic} {o : Nat} {i : Instr} {imm : Imm12} (he : encode i = encodeJ m imm)
    (hb : fixedBits i.mnemonic = (o, none)) (ho : (opcodeOf m).toNat = o) : TableMatch.Statement i := by
  have := imm.isLt
  unfold TableMatch.Statement
  rw [he, hb, encodeJ, jWord_toNat, ho]
  constructor
  · show _ = o; omega
  · intro g hg; cases hg

theorem TableMatch.add (rd rs rt : Reg) : TableMatch.Statement (.add rd rs rt) := registerRow rfl rfl rfl rfl
theorem TableMatch.sub (rd rs rt : Reg) : TableMatch.Statement (.sub rd rs rt) := registerRow rfl rfl rfl rfl
theorem TableMatch.slt (rd rs rt : Reg) : TableMatch.Statement (.slt rd rs rt) := registerRow rfl rfl rfl rfl
theorem TableMatch.mul (rd rs rt : Reg) : TableMatch.Statement (.mul rd rs rt) := registerRow rfl rfl rfl rfl
theorem TableMatch.div (rd rs rt : Reg) : TableMatch.Statement (.div rd rs rt) := registerRow rfl rfl rfl rfl
theorem TableMatch.sllr (rd rs rt : Reg) : TableMatch.Statement (.sllr rd rs rt) := registerRow rfl rfl rfl rfl
theorem TableMatch.srlr (rd rs rt : Reg) : TableMatch.Statement (.srlr rd rs rt) := registerRow rfl rfl rfl rfl
theorem TableMatch.addi (rd rs : Reg) (imm : Imm6) : TableMatch.Statement (.addi rd rs imm) := immediateRow rfl rfl rfl
theorem TableMatch.li (rd rs : Reg) (imm : Imm6) : TableMatch.Statement (.li rd rs imm) := immediateRow rfl rfl rfl
theorem TableMatch.lui (rd rs : Reg) (imm : Imm6) : TableMatch.Statement (.lui rd rs imm) := immediateRow rfl rfl rfl
theorem TableMatch.lw (rd rs : Reg) (imm : Imm6) : TableMatch.Statement (.lw rd rs imm) := immediateRow rfl rfl rfl
theorem TableMatch.sw (rd rs : Reg) (imm : Imm6) : TableMatch.Statement (.sw rd rs imm) := immediateRow rfl rfl rfl
theorem TableMatch.beq (rd rs : Reg) (imm : Imm6) : TableMatch.Statement (.beq rd rs imm) := immediateRow rfl rfl rfl
theorem TableMatch.bne (rd rs : Reg) (imm : Imm6) : TableMatch.Statement (.bne rd rs imm) := immediateRow rfl rfl rfl
theorem TableMatch.sll (rd rs : Reg) (imm : Imm6) : TableMatch.Statement (.sll rd rs imm) := immediateRow rfl rfl rfl
theorem TableMatch.srl (rd rs : Reg) (imm : Imm6) : TableMatch.Statement (.srl rd rs imm) := immediateRow rfl rfl rfl
theorem TableMatch.sra (rd rs : Reg) (imm : Imm6) : TableMatch.Statement (.sra rd rs imm) := immediateRow rfl rfl rfl
theorem TableMatch.jmp (imm : Imm12) : TableMatch.Statement (.jmp imm) := jumpRow rfl rfl rfl
theorem TableMatch.jal (imm : Imm12) : TableMatch.Statement (.jal imm) := jumpRow rfl rfl rfl

end Sys2Proof.Laws
end

