-- ==== Sys2Proof/Laws/Predictor.lean ====
section
/-! SUPPORT. The key's place in the table, and what `predict` and `update` leave in it. -/

namespace Sys2Proof.Machine

theorem BranchKey.index_eq (k : BranchKey) :
    k.index = (if k.op = .bne then 64 else 0) + k.a.toNat * 8 + k.b.toNat := by
  obtain ⟨op, a, b⟩ := k
  show (BitVec.ofBool (op == .bne) ++ a ++ b).toNat = _
  rw [append_toNat, append_toNat]
  cases op
  · show (0 * 2 ^ 3 + a.toNat) * 2 ^ 3 + b.toNat = 0 + a.toNat * 8 + b.toNat
    omega
  · show (1 * 2 ^ 3 + a.toNat) * 2 ^ 3 + b.toNat = 64 + a.toNat * 8 + b.toNat
    omega

theorem BranchKey.index_lt (k : BranchKey) : k.index < 128 := by
  rw [BranchKey.index_eq]
  have := k.a.isLt
  have := k.b.isLt
  split <;> omega

/-- Creating an entry changes the state of no key (rule R144). -/
@[simp] theorem entryOf_ensureEntry (st : Strategy) (t : Bpt) (k q : BranchKey) :
    entryOf st (ensureEntry st t k) q = entryOf st t q := by
  unfold entryOf ensureEntry
  cases hi : st.initial with
  | none => rfl
  | some v =>
    cases hg : tableGet t k.index with
    | some x => rfl
    | none =>
      simp only [tableGet_set]
      by_cases h : q.index = k.index
      · simp [h, hg]
      · simp [h]

/-- The state a key has after an update, under a dynamic strategy (rules R147, R149, R151). -/
theorem entryOf_update {st : Strategy} (h : st.initial.isSome) (t : Bpt) (k q : BranchKey) (taken : Bool) :
    entryOf st (update st t k taken) q =
      if q.index = k.index then st.advance (entryOf st t k) taken else entryOf st t q := by
  cases hi : st.initial with
  | none => simp [hi] at h
  | some v =>
    have hu : update st t k taken = tableSet t k.index (st.advance (entryOf st t k) taken) := by simp [update, hi]
    rw [hu]
    conv_lhs => unfold entryOf
    rw [tableGet_set]
    by_cases hq : q.index = k.index
    · simp only [hq, if_true]; rfl
    · simp only [hq, if_false]; rfl

theorem update_static {st : Strategy} (h : st.initial = none) (t : Bpt) (k : BranchKey) (taken : Bool) :
    update st t k taken = t := by simp [update, h]

theorem ensureEntry_static {st : Strategy} (h : st.initial = none) (t : Bpt) (k : BranchKey) :
    ensureEntry st t k = t := by simp [ensureEntry, h]

end Sys2Proof.Machine
end

