-- ==== Sys2Proof/Tests/Slice0.lean ====
section
/-! SUPPORT. Tests on fixed values. Words, start states and results of the decode and step tests are the rows of sections 1 to 9 of
95_test_vectors.md (the section is named at each group); the `witness_` theorems show that the hypotheses of the statement of that
name can be met, at the boundary values of each clause. -/

namespace Sys2Proof.Tests

open Sys2Proof Sys2Proof.Machine

/-! ## Helpers -/

/-- The state an outcome answers, or a given one where it answers none. -/
def stateOr (s : State) : Host.Outcome State Fault Refusal → State
  | .next t => t
  | .fault _ => s
  | .refused _ => s

/-- The state after one step. -/
def after (s : State) : State := stateOr s (step s)

/-- The state after one instruction. -/
def ran (i : Instr) (s : State) : State := stateOr s (exec i s)

/-- The reset state with cells and with values in registers 1 to 3. -/
def start (mem : Memory) (x1 x2 x3 : Word) : State :=
  { State.reset with regs := #v[0, x1, x2, x3, 0, 0, 0, 0], mem := mem }

/-- One step of the instruction word `w` at address 0. -/
def one (w x1 x2 : Word) : State := after (start [(0, w)] x1 x2 0)

/-- The state with another `pc`. -/
def atPc (pc : Int) (s : State) : State := { s with pc := pc }

/-- The cause and the information of the recorded fault. -/
def causeOf (s : State) : Option (FaultCause × FaultInfo) := s.fault.map (fun f => (f.cause, f.info))

/-! ## Well-formedness: each check refuses an ill-formed term -/

theorem test_wellFormed_refuses_sentinel : (Instr.add 0 0 0).wellFormed = false := by decide
theorem test_wellFormed_accepts_sub_zero : (Instr.sub 0 0 0).wellFormed = true := by decide
theorem test_wellFormed_accepts_add : (Instr.add 0 0 1).wellFormed = true := by decide

/-! ## Decoding, one written-out word per instruction (95_test_vectors.md section 2.1) -/

theorem test_decode_add : classify 0b0000010000001000 = .instr (.add 2 0 1) := by decide
theorem test_decode_sub : classify 0b0000001010011001 = .instr (.sub 1 2 3) := by decide
theorem test_decode_slt : classify 0b0000111110101010 = .instr (.slt 7 6 5) := by decide
theorem test_decode_mul : classify 0b0000100100100011 = .instr (.mul 4 4 4) := by decide
theorem test_decode_div : classify 0b0000001010011100 = .instr (.div 1 2 3) := by decide
theorem test_decode_sllr : classify 0b0000001010011101 = .instr (.sllr 1 2 3) := by decide
theorem test_decode_srlr : classify 0b0000001010011110 = .instr (.srlr 1 2 3) := by decide
theorem test_decode_addi : classify 0b0001010010000001 = .instr (.addi 2 2 1) := by decide
theorem test_decode_li : classify 0b0010000000111111 = .instr (.li 0 0 0b111111) := by decide
theorem test_decode_lui : classify 0b0011001000111111 = .instr (.lui 1 0 0b111111) := by decide
theorem test_decode_lw : classify 0b0100001010000000 = .instr (.lw 1 2 0) := by decide
theorem test_decode_sw : classify 0b0101001010111111 = .instr (.sw 1 2 0b111111) := by decide
theorem test_decode_beq : classify 0b0110000001000001 = .instr (.beq 0 1 1) := by decide
theorem test_decode_bne : classify 0b0111011100111100 = .instr (.bne 3 4 0b111100) := by decide
theorem test_decode_sll : classify 0b1000001001000100 = .instr (.sll 1 1 4) := by decide
theorem test_decode_srl : classify 0b1001001001001111 = .instr (.srl 1 1 15) := by decide
theorem test_decode_sra : classify 0b1010001001000001 = .instr (.sra 1 1 1) := by decide
theorem test_decode_jmp : classify 0b1011111111111011 = .instr (.jmp 0b111111111011) := by decide
theorem test_decode_jal : classify 0b1100000000000011 = .instr (.jal 3) := by decide

/-- 95_test_vectors.md section 2.3 and section 9. -/
theorem test_decode_no_instruction :
    classify 0x0000 = .sentinel ∧ classify 0x0007 = .reserved .function ∧ classify 0x0FFF = .reserved .function ∧
      classify 0xD000 = .reserved .opcode ∧ classify 0xE123 = .reserved .opcode ∧ classify 0xFFFF = .reserved .opcode ∧
      classify 0xCFFF = .instr (.jal 0xFFF) ∧ classify 0x0001 = .instr (.sub 0 0 0) := by decide

theorem test_decodeTableWord :
    decodeTableWord 16 0x0299 = some (.sub 1 2 3) ∧ decodeTableWord 16 0 = none ∧ decodeTableWord 16 0xD000 = none := by decide

/-- 95_test_vectors.md section 2.2. -/
theorem test_encode_masks_fields :
    encodeFields .I ⟨1, 9, 8, 0, 0, 69⟩ = 0x1205 ∧ encodeFields .R ⟨0, 2, 0, 1, 8, 0⟩ = 0x0408 ∧
      encodeFields .J ⟨11, 0, 0, 0, 0, 4103⟩ = 0xB007 ∧ encodeFields .I ⟨7, 1, 0, 0, 0, -3⟩ = 0x723D := by decide

/-- 95_test_vectors.md section 2.3. -/
theorem test_decode_all_members :
    decodeFields 0x723D = { opcode := 7, rd := 1, rs := 0, rt := 7, func := 5, immI := 61, immJ := 573 } := by decide

/-! ## Register format (95_test_vectors.md section 3) -/

theorem test_add_overflow_wraps : (one 0x0650 0x7FFF 1).reg 3 = 0x8000 ∧ (one 0x0650 0x7FFF 1).pc = 1 := by decide
theorem test_add_same_register : (one 0x0248 0x4000 0).reg 1 = 0x8000 := by decide
theorem test_sub_wraps : (one 0x0651 0x8000 1).reg 3 = 0x7FFF := by decide
theorem test_slt_is_signed : (one 0x0652 0xFFFF 1).reg 3 = 1 := by decide
theorem test_slt_not_below : (one 0x0652 1 0xFFFF).reg 3 = 0 := by decide
theorem test_mul_wraps : (one 0x0653 0x012C 0x012C).reg 3 = 0x5F90 := by decide
theorem test_mul_negative : (one 0x0653 0xFFFE 3).reg 3 = 0xFFFA := by decide
theorem test_div_rounds_toward_zero : (one 0x0654 0xFFF9 2).reg 3 = 0xFFFD := by decide
theorem test_div_quotient_wraps : (one 0x0654 0x8000 0xFFFF).reg 3 = 0x8000 := by decide
theorem test_sllr_amount_16 : (one 0x0655 0xFFFF 16).reg 3 = 0 := by decide
theorem test_sllr_amount_4 : (one 0x0655 0x00FF 4).reg 3 = 0x0FF0 := by decide
theorem test_srlr_zeros_enter : (one 0x0656 0xFFFF 4).reg 3 = 0x0FFF := by decide
theorem test_srlr_negative_faults : causeOf (one 0x0656 0xFFFF 0x8000) = some (.negativeShiftAmount, .word 0x0656) := by decide

/-- The divide fault leaves everything as it was. -/
theorem test_div_by_zero_faults :
    let t := one 0x0654 5 0
    causeOf t = some (.divideByZero, .word 0x0654) ∧ t.runState = .faulted ∧ t.reg 3 = 0 ∧ t.pc = 0 ∧ t.executed = 0 := by decide

/-! ## Immediate format (95_test_vectors.md section 4) -/

theorem test_addi_negative : (one 0x1660 0x8000 0).reg 3 = 0x7FE0 := by decide
theorem test_addi_wraps : (one 0x165F 0x7FFF 0).reg 3 = 0x801E := by decide
theorem test_li_sign_extends : (one 0x2620 0 0).reg 3 = 0xFFE0 := by decide
theorem test_li_zero : (after (start [(0, 0x2600)] 0 0 9)).reg 3 = 0 := by decide
theorem test_lui_does_not_sign_extend : (one 0x3620 0 0).reg 3 = 0x8000 := by decide
theorem test_lui_clears_low_bits : (after (start [(0, 0x3601)] 0 0 0xFFFF)).reg 3 = 0x0400 := by decide
theorem test_sll_amount_15 : (one 0x864F 1 0).reg 3 = 0x8000 := by decide
theorem test_sll_field_32_faults : causeOf (one 0x8660 1 0) = some (.negativeShiftAmount, .word 0x8660) := by decide
theorem test_srl_zeros_enter : (one 0x9641 0x8001 0).reg 3 = 0x4000 := by decide
theorem test_srl_amount_16 : (one 0x9650 0xFFFF 0).reg 3 = 0 := by decide
theorem test_sra_sign_fills : (one 0xA641 0xFFF9 0).reg 3 = 0xFFFC := by decide
theorem test_sra_amount_16 : (one 0xA650 0x8000 0).reg 3 = 0xFFFF := by decide

/-! ## Load and store (95_test_vectors.md section 5) -/

theorem test_lw_negative_base : (one 0x4641 0xFFFF 0).reg 3 = 0x4641 := by decide
theorem test_lw_address_is_not_wrapped : causeOf (one 0x467F 0 0) = some (.memAddressOutOfRange, .address (-1)) := by decide
theorem test_sw_stores_rd : (after (start [(0, 0x567F)] 0x012C 0 0xBEEF)).mem = [(0, 0x567F), (299, 0xBEEF)] := by decide
theorem test_sw_out_of_range :
    let t := after (start [(0, 0x5640)] 0x0200 0 1)
    causeOf t = some (.memAddressOutOfRange, .address 512) ∧ t.mem = [(0, 0x5640)] := by decide

/-! ## Branches, jumps, predictor (95_test_vectors.md sections 1.2, 6, 7) -/

theorem test_beq_taken :
    let t := one 0x6041 0 0
    t.pc = 2 ∧ t.cycles = 3 ∧ t.stalls = 0 ∧ t.bpt = [(1, 3)] := by decide
theorem test_beq_not_taken :
    let t := one 0x6041 1 0
    t.pc = 1 ∧ t.cycles = 1 ∧ t.stalls = 1 ∧ t.flushes = 1 ∧ t.bpt = [(1, 1)] := by decide
theorem test_bne_backward : (after (atPc 4 (start [(4, 0x723D)] 1 0 0))).pc = 2 := by decide
theorem test_bne_not_taken :
    let t := after (atPc 4 (start [(4, 0x723D)] 0 0 0))
    t.pc = 5 ∧ t.bpt = [(72, 1)] := by decide
theorem test_jmp_backward : (after (atPc 4 (start [(4, 0xBFFB)] 0 0 0))).pc = 0 := by decide
theorem test_jmp_out_of_memory_faults_at_next_fetch :
    let t := one 0xB7FF 0 0
    t.pc = 2048 ∧ t.executed = 1 ∧ causeOf (after t) = some (.fetchOutOfRange, .address 2048) := by decide
theorem test_jal_links_the_target :
    let t := after (atPc 2 (start [(2, 0xC003)] 0 0 0))
    t.pc = 6 ∧ t.reg 7 = 6 := by decide
theorem test_jal_links_a_negative_target :
    let t := one 0xCFFC 0 0
    t.pc = -3 ∧ t.reg 7 = 0xFFFD := by decide

/-- Section 1.2, the same branch under the other strategies. -/
theorem test_beq_strategies :
    let t (st : Strategy) := after { start [(0, 0x6041)] 0 0 0 with strategy := st }
    ((t .alwaysTaken).stalls, (t .alwaysTaken).bpt) = (0, []) ∧
      ((t .alwaysNotTaken).stalls, (t .alwaysNotTaken).bpt) = (1, []) ∧
      ((t .oneBit).stalls, (t .oneBit).bpt) = (0, [(1, 1)]) ∧
      ((t .eightState).stalls, (t .eightState).bpt) = (0, [(1, 5)]) := by decide

/-! ## The step (95_test_vectors.md section 9) and the first instruction after reset -/

theorem test_reserved_word_faults :
    causeOf (one 0x0FFF 0 0) = some (.illegalInstruction, .word 0x0FFF) ∧ (one 0xD000 0 0).pc = 0 := by decide

theorem test_withFetchWord_runs_the_word :
    step (State.reset.withFetchWord 16 0x2005) = exec (.li 0 0 5) (State.reset.withFetchWord 16 0x2005) ∧
      (after (State.reset.withFetchWord 16 0x2005)).reg 0 = 5 := ⟨rfl, by decide⟩

theorem test_withFetchWord_readies_any_state :
    (after ({ State.reset with runState := .faulted, pc := 600, cycles := 2000 }.withFetchWord 16 0x2205)).reg 1 = 5 := by decide

/-! ## The host's side (95_test_vectors.md sections 1.2, 1.4, 1.5) -/

theorem test_assemble_forward_label :
    assemble ["beq $r0, $r1, done".toList, "addi $r2, $r2, 1".toList, "done:".toList] = .ok [0x6041, 0x1481] := by rfl

theorem test_assemble_backward_label :
    assemble ["loop:".toList, "add $r2, $r2, $r1".toList, "addi $r1, $r1, -1".toList, "bne $r1, $r0, loop".toList] =
      .ok [0x0488, 0x127F, 0x723D] := by rfl

theorem test_assemble_errors :
    assemble ["jmp nowhere".toList] = .error (.unresolvedLabel "nowhere".toList) ∧
      assemble ["nop".toList] = .error (.unknownMnemonic "nop".toList) ∧
      assemble ["li $r1, 2, 3".toList] = .error .tooManyOperands := ⟨rfl, rfl, rfl⟩

/-- The model's choices of log entries 18, 19 and 21. -/
theorem test_assemble_refuses_undefined_texts :
    assemble ["ADD $r1, $r1, $r1".toList] = .error (.unknownMnemonic "ADD".toList) ∧
      assemble ["self: jmp self".toList] = .error .malformedLine ∧
      assemble ["li $r1, 2,".toList] = .error .tooManyOperands := ⟨rfl, rfl, rfl⟩

/-- The model's choices of log entries 22 and 23: the error in reading a later line comes first. -/
theorem test_assemble_plus_and_error_order :
    assemble ["beq $r0, $r1, +1".toList] = .error (.unresolvedLabel "+1".toList) ∧
      assemble ["li $r1, +1".toList] = .error (.malformedOperand "+1".toList) ∧
      assemble ["a:".toList, "a:".toList, "nop".toList] = .error (.unknownMnemonic "nop".toList) := ⟨rfl, rfl, rfl⟩

theorem test_reporter_formulas : ipc 10 12 = 5 / 6 ∧ accuracy 10 2 = 80 ∧ speedup 12 2 = 6 / 7 ∧ ipc 0 0 = 0 := by
  norm_num [ipc, accuracy, speedup]

theorem test_report_only_after_halt :
    State.reset.report.isNone = true ∧ State.reset.halt.report.isSome = true ∧ State.reset.timeOut.report.isNone = true := by decide

/-! ## Witnesses: encoding -/

theorem witness_EncodeAndClassifyAgree :
    (Instr.sra 7 7 63).wellFormed = true ∧ classify 0xAFFF = .instr (.sra 7 7 63) ∧ classify 0xB800 = .instr (.jmp 2048) := by decide

theorem witness_CodecRoundTripsFields :
    sext6 (decodeFields (encodeFields .I ⟨7, 1, 0, 0, 0, -32⟩)).immI = -32 ∧
      sext6 (decodeFields (encodeFields .I ⟨7, 1, 0, 0, 0, 31⟩)).immI = 31 ∧
      sext12 (decodeFields (encodeFields .J ⟨11, 0, 0, 0, 0, -2048⟩)).immJ = -2048 ∧
      sext12 (decodeFields (encodeFields .J ⟨11, 0, 0, 0, 0, 2047⟩)).immJ = 2047 := by decide

/-! ## Witnesses: the step -/

theorem witness_StepRunsFetchedInstruction :
    let first : State := { start [(0, 0x0408)] 0 0 0 with cycles := 1000 }
    let last := atPc 511 (start [(511, 0x2201)] 0 0 0)
    (InBudget first ∧ 0 ≤ first.pc ∧ first.pc ≤ 511 ∧ classify (first.mem.read first.pc.toNat) = .instr (.add 2 0 1)) ∧
      InBudget last ∧ 0 ≤ last.pc ∧ last.pc ≤ 511 ∧ classify (last.mem.read last.pc.toNat) = .instr (.li 1 0 1) := by
  unfold InBudget; decide

theorem witness_TimeoutComesFirst :
    let s : State := { atPc 600 .reset with cycles := 1001 }
    s.runState = .running ∧ s.budget < s.cycles := by decide

theorem witness_FetchOutsideMemoryFaults :
    (InBudget (atPc (-1) .reset) ∧ (atPc (-1) .reset).pc < 0) ∧ InBudget (atPc 512 .reset) ∧ 511 < (atPc 512 .reset).pc := by
  unfold InBudget; decide

theorem witness_HaltChangesOnlyTheRunState :
    InBudget (atPc 511 .reset) ∧ 0 ≤ (atPc 511 .reset).pc ∧ (atPc 511 .reset).pc ≤ 511 ∧
      (atPc 511 .reset).mem.read (atPc 511 .reset).pc.toNat = 0 := by unfold InBudget; decide

theorem witness_ZeroWordHaltsOnFetchOnly :
    (InBudget .reset ∧ 0 ≤ State.reset.pc ∧ State.reset.pc ≤ 511 ∧ State.reset.mem.read State.reset.pc.toNat = 0) ∧
      (0 ≤ effectiveAddress (State.reset.reg 1) 31 ∧ effectiveAddress (State.reset.reg 1) 31 ≤ 511 ∧
        State.reset.mem.read (effectiveAddress (State.reset.reg 1) 31).toNat = 0) ∧ State.reset.reg 3 = 0 := by
  unfold InBudget; decide

theorem witness_ReservedWordFaults :
    let s (w : Word) := start [(0, w)] 0 0 0
    (InBudget (s 0xD000) ∧ 0 ≤ (s 0xD000).pc ∧ (s 0xD000).pc ≤ 511 ∧ (s 0xD000).mem.read (s 0xD000).pc.toNat = 0xD000 ∧
      13 * 4096 ≤ (0xD000 : Word).toNat) ∧
      InBudget (s 0x0FFF) ∧ 0 ≤ (s 0x0FFF).pc ∧ (s 0x0FFF).pc ≤ 511 ∧ (s 0x0FFF).mem.read (s 0x0FFF).pc.toNat = 0x0FFF ∧
      (0x0FFF : Word).toNat < 4096 ∧ (0x0FFF : Word).toNat % 8 = 7 := by unfold InBudget; decide

theorem witness_TerminalStatesStay :
    State.reset.halt.runState ≠ .running ∧ State.reset.timeOut.runState ≠ .running ∧
      (State.reset.raise .divideByZero (.word 4)).runState ≠ .running := by decide

/-- A step of each of the four transitions from Running, and one from a terminal state. -/
theorem witness_RunStateTransitions :
    (step (start [(0, 0x2005)] 0 0 0) = .next (one 0x2005 0 0) ∧ (one 0x2005 0 0).runState = .running) ∧
      (step .reset = .next (after .reset) ∧ (after .reset).runState = .halted) ∧
      (step { State.reset with cycles := 1001 } = .next (after { State.reset with cycles := 1001 }) ∧
        (after { State.reset with cycles := 1001 }).runState = .timedOut) ∧
      (step (start [(0, 0xD000)] 0 0 0) = .next (one 0xD000 0 0) ∧ (one 0xD000 0 0).runState = .faulted) ∧
      step State.reset.halt = .next State.reset.halt :=
  ⟨⟨rfl, by decide⟩, ⟨rfl, by decide⟩, ⟨rfl, by decide⟩, ⟨rfl, by decide⟩, rfl⟩

theorem witness_ExecutedCountsCompletedInstructions :
    step (start [(0, 0x2005)] 0 0 0) = .next (one 0x2005 0 0) ∧ (one 0x2005 0 0).executed = 1 := ⟨rfl, by decide⟩

/-- One step of each cause, with the bounds of the two address faults. -/
theorem witness_FaultsArePrecise :
    (step (atPc 512 .reset) = .next (after (atPc 512 .reset)) ∧
      causeOf (after (atPc 512 .reset)) = some (.fetchOutOfRange, .address 512)) ∧
      (step (atPc (-1) .reset) = .next (after (atPc (-1) .reset)) ∧
        causeOf (after (atPc (-1) .reset)) = some (.fetchOutOfRange, .address (-1))) ∧
      (step (start [(0, 0x467F)] 0 0 0) = .next (one 0x467F 0 0) ∧
        causeOf (one 0x467F 0 0) = some (.memAddressOutOfRange, .address (-1))) ∧
      (step (start [(0, 0x0007)] 0 0 0) = .next (one 0x0007 0 0) ∧
        causeOf (one 0x0007 0 0) = some (.illegalInstruction, .word 0x0007)) ∧
      (step (start [(0, 0x0654)] 5 0 0) = .next (one 0x0654 5 0) ∧ causeOf (one 0x0654 5 0) = some (.divideByZero, .word 0x0654)) ∧
      step (start [(0, 0x867F)] 1 0 0) = .next (one 0x867F 1 0) ∧
        causeOf (one 0x867F 1 0) = some (.negativeShiftAmount, .word 0x867F) :=
  ⟨⟨rfl, by decide⟩, ⟨rfl, by decide⟩, ⟨rfl, by decide⟩, ⟨rfl, by decide⟩, ⟨rfl, by decide⟩, rfl, by decide⟩

theorem witness_CountersGrowAndParametersStay :
    step (start [(0, 0x6041)] 1 0 0) = .next (one 0x6041 1 0) ∧ (one 0x6041 1 0).cycles = 1 ∧ (one 0x6041 1 0).stalls = 1 :=
  ⟨rfl, by decide⟩

theorem witness_InstructionsIgnoreCounters : exec (.beq 0 1 1) .reset = .next (ran (.beq 0 1 1) .reset) := rfl

/-! ## Witnesses: invariants -/

theorem witness_StepKeepsMemoryCanonical :
    MemoryCanonical (start [(0, 0x567F)] 0x012C 0 0xBEEF) ∧
      step (start [(0, 0x567F)] 0x012C 0 0xBEEF) = .next (after (start [(0, 0x567F)] 0x012C 0 0xBEEF)) :=
  ⟨by unfold MemoryCanonical; decide, rfl⟩

theorem witness_StepKeepsTableLegal :
    TableLegal (start [(0, 0x6041)] 1 0 0) ∧ step (start [(0, 0x6041)] 1 0 0) = .next (one 0x6041 1 0) :=
  ⟨by unfold TableLegal; decide, rfl⟩

/-- The two boundaries: the farthest jumps from the ends of memory. -/
theorem witness_StepKeepsPcInRange :
    let low := start [(0, 0xB800)] 0 0 0
    let high := atPc 511 (start [(511, 0xB7FF)] 0 0 0)
    (PcInRange low ∧ step low = .next (after low) ∧ (after low).pc = -2047) ∧
      PcInRange high ∧ step high = .next (after high) ∧ (after high).pc = 2559 :=
  ⟨⟨by unfold PcInRange; decide, rfl, by decide⟩, by unfold PcInRange; decide, rfl, by decide⟩

theorem witness_StepKeepsFaultRecorded :
    FaultRecorded (start [(0, 0xD000)] 0 0 0) ∧ step (start [(0, 0xD000)] 0 0 0) = .next (one 0xD000 0 0) :=
  ⟨by unfold FaultRecorded; decide, rfl⟩

/-- The greatest overshoot: a taken branch with `cycles` equal to the budget (section 9). -/
theorem witness_StepKeepsCountersConsistent :
    let s : State := { start [(0, 0x6000)] 0 0 0 with budget := 0 }
    CountersConsistent s ∧ OvershootBounded s ∧ step s = .next (after s) ∧ (after s).cycles = 3 :=
  ⟨by unfold CountersConsistent; decide, by unfold OvershootBounded; decide, rfl, by decide⟩

/-! ## Witnesses: instructions -/

theorem witness_AddWritesWrappedSum :
    (0#4 ++ (0 : Reg) ++ (0 : Reg) ++ (1 : Reg) ++ 0#3 : Word) ≠ 0 ∧ (0#4 ++ (7 : Reg) ++ (7 : Reg) ++ (7 : Reg) ++ 0#3 : Word) ≠ 0 := by
  decide

theorem witness_DivWritesTruncatedQuotient : (start [] 0x8000 0xFFFF 0).reg 2 ≠ 0 ∧ (start [] 1 1 0).reg 2 ≠ 0 := by decide

theorem witness_DivByZeroFaults : (start [] 5 0 0).reg 2 = 0 := by decide

theorem witness_RegisterShiftsWriteShiftedWord :
    0 ≤ ((start [] 1 0 0).reg 2).toInt ∧ 0 ≤ ((start [] 1 16 0).reg 2).toInt ∧ 0 ≤ ((start [] 1 0x7FFF 0).reg 2).toInt := by decide

theorem witness_NegativeRegisterShiftFaults :
    ((start [] 1 0xFFFF 0).reg 2).toInt < 0 ∧ ((start [] 1 0x8000 0).reg 2).toInt < 0 := by decide

theorem witness_ImmediateShiftsWriteShiftedWord : (0 : Imm6).toNat ≤ 31 ∧ (16 : Imm6).toNat ≤ 31 ∧ (31 : Imm6).toNat ≤ 31 := by decide

theorem witness_NegativeImmediateShiftFaults : 32 ≤ (32 : Imm6).toNat ∧ 32 ≤ (63 : Imm6).toNat := by decide

/-- The addresses 0 and 511. -/
theorem witness_LwLoadsCell :
    (0 ≤ ((start [] 0xFFFF 0 0).reg 1).toInt + (1 : Imm6).toInt ∧ ((start [] 0xFFFF 0 0).reg 1).toInt + (1 : Imm6).toInt ≤ 511) ∧
      0 ≤ ((start [] 480 0 0).reg 1).toInt + (31 : Imm6).toInt ∧ ((start [] 480 0 0).reg 1).toInt + (31 : Imm6).toInt = 511 := by
  decide

theorem witness_SwStoresCell :
    (0 ≤ effectiveAddress ((start [] 0xFFFF 0 0).reg 1) 1 ∧ effectiveAddress ((start [] 0xFFFF 0 0).reg 1) 1 ≤ 511) ∧
      0 ≤ effectiveAddress ((start [] 511 0 0).reg 1) 0 ∧ effectiveAddress ((start [] 511 0 0).reg 1) 0 ≤ 511 := by decide

/-- The addresses -1 and 512. -/
theorem witness_OutOfRangeAccessFaults :
    ((start [] 0 0 0).reg 1).toInt + (63 : Imm6).toInt < 0 ∧ 511 < ((start [] 511 0 0).reg 1).toInt + (1 : Imm6).toInt := by decide

/-- Jumps from 0 to -1 and from 511 to 512. -/
theorem witness_JmpAddsDisplacement :
    let low := ran (.jmp 0xFFE) .reset
    let high := ran (.jmp 0) (atPc 511 .reset)
    (InBudget low ∧ low.pc = -1 ∧ low.pc < 0) ∧ InBudget high ∧ high.pc = 512 ∧ 511 < high.pc := by unfold InBudget; decide

theorem witness_MemoryReadsLastWrite :
    memRead [] 0 = some 0 ∧ memWrite [] 511 7 = some [(511, 7)] ∧ memRead [] (-1) = none ∧ memWrite [] 512 7 = none := by decide

/-- A stored zero that halts, and a stored `li $r1, 1` that runs. -/
theorem witness_StoreIsSeenByFetch :
    let zero := start [] 511 0 0
    let code := start [] 511 0 0x2201
    (exec (.sw 3 1 0) zero = .next (ran (.sw 3 1 0) zero) ∧ (ran (.sw 3 1 0) zero).runState ≠ .faulted ∧
        InBudget (atPc 511 (ran (.sw 3 1 0) zero)) ∧ (511 : Int) = effectiveAddress (zero.reg 1) 0 ∧ zero.reg 3 = 0) ∧
      exec (.sw 3 1 0) code = .next (ran (.sw 3 1 0) code) ∧ (ran (.sw 3 1 0) code).runState ≠ .faulted ∧
      InBudget (atPc 511 (ran (.sw 3 1 0) code)) ∧ (511 : Int) = effectiveAddress (code.reg 1) 0 ∧
      classify (code.reg 3) = .instr (.li 1 0 1) :=
  ⟨⟨rfl, by unfold InBudget; decide⟩, rfl, by unfold InBudget; decide⟩

/-! ## Witnesses: predictor -/

theorem witness_OneBitPredictsLastOutcome :
    tableGet ([] : Bpt) (BranchKey.mk .beq 0 1).index = none ∧ BranchKey.mk .beq 1 0 ≠ BranchKey.mk .beq 0 1 := by decide

/-- A saturated entry, an unseen key, and another key. -/
theorem witness_SaturatingCountersMoveOneStep :
    let k := BranchKey.mk .bne 7 7
    tableGet ([] : Bpt) k.index = none ∧ (entryOf .twoBit [(127, 3)] k).toNat = 3 ∧ (entryOf .eightState [(127, 7)] k).toNat = 7 ∧
      BranchKey.mk .beq 7 7 ≠ k := by decide

theorem witness_SaturationReachesExtremes : (3#3).toNat ≤ 3 ∧ 3 ≤ 3 ∧ (7#3).toNat ≤ 7 ∧ 7 ≤ 9 := by decide

/-- Two states with different strategies, one step of a branch. -/
theorem witness_PredictionNeverChangesResults :
    let s := start [(0, 0x6041)] 0 0 0
    SameArchitecture s { s with strategy := .alwaysNotTaken } ∧ ReachesIn 1 s (after s) :=
  ⟨⟨rfl, rfl, rfl, rfl, rfl, rfl, rfl, rfl⟩, rfl⟩

theorem witness_OnlyBranchesUseThePredictor :
    exec (.sw 0 0 0) .reset = .next (ran (.sw 0 0 0) .reset) ∧ (Instr.sw 0 0 0).mnemonic ≠ .beq ∧ (Instr.sw 0 0 0).mnemonic ≠ .bne :=
  ⟨rfl, by decide⟩

theorem witness_BranchKeysHaveOwnPlaces : (BranchKey.mk .bne 7 7).index = 127 ∧ (BranchKey.mk .beq 0 0).index = 0 := by decide

/-! ## Witnesses: the host's side -/

theorem witness_LoaderPlacesImages :
    (List.replicate 256 (0x2005 : Word)).length ≤ 256 ∧ (List.replicate 256 (-1 : Int)).length ≤ 256 ∧
      256 < (List.replicate 257 (0x2005 : Word)).length ∧ 256 < (List.replicate 257 (-1 : Int)).length := by
  simp only [List.length_replicate]; decide

theorem witness_ReporterMetrics :
    startImage [0x6041] [7] ⟨10, .alwaysNotTaken, 1⟩ =
        .ok { State.reset with mem := [(0, 0x6041), (256, 7)], budget := 10, strategy := .alwaysNotTaken, staticCount := 1 } ∧
      ∃ t, ReachesIn 1 { State.reset with mem := [(0, 0x6041), (256, 7)], budget := 10, strategy := .alwaysNotTaken,
                                          staticCount := 1 } t ∧ t.executed = 1 ∧ t.stalls = 1 :=
  ⟨rfl, _, rfl, by decide⟩

/-- A forward use, a backward use and a line without a label. -/
theorem witness_AssembledLabelsResolve :
    let ls : List Line :=
      [.instr { mnemonic := .jmp, label := some ['e'] }, .label ['b'], .instr { mnemonic := .addi, rd := 1, rs := 1, imm := -1 },
        .instr { mnemonic := .bne, rd := 1, label := some ['b'] }, .label ['e']]
    assembleLines ls = .ok [0xB002, 0x127F, 0x723E] ∧ (instructionLines ls).length = 3 := ⟨rfl, by decide⟩

end Sys2Proof.Tests
end

section
/-! PROOFS. The state of 10_state.md: its values after reset (rule R29), and registers that hold what is written to them
(rule R12). -/

namespace Sys2Proof.Machine

/-! ## Narrowing to a word -/

/-- Narrowing an exact sum once is adding the words: a word is arithmetic modulo 65536. -/
theorem u16_add (m n : Int) : u16 (m + n) = u16 m + u16 n := BitVec.ofInt_add m n

@[simp] theorem u16_toNat (a : Word) : u16 (a.toNat : Int) = a := by
  rw [u16, BitVec.ofInt_natCast, BitVec.ofNat_toNat, BitVec.setWidth_eq]

@[simp] theorem u16_sext6 (imm : Imm6) : u16 (sext6 imm) = imm.signExtend 16 := rfl

/-- The sum of `addi` as word arithmetic (rule R111). -/
theorem addImmediate_eq (a : Word) (imm : Imm6) : addImmediate a imm = a + imm.signExtend 16 := by
  rw [addImmediate, u16_add, u16_toNat, u16_sext6]

/-! ## A plain result -/

/-- A plain result is in the register it was written to, register 0 or any other, and nothing else is written (rules R12, R100,
R110). -/
theorem writeResult_writesOnly (s : State) (rd : Reg) (v : Word) :
    ∃ t, writeResult s rd v = .next t ∧ WritesOnly s t rd v := by
  refine ⟨_, rfl, ?value, ?otherRegs, rfl, ?memory, rfl, ?counted, ?run⟩
  case value => rw [State.commit_reg]; exact if_pos rfl
  case otherRegs => intro r hr; rw [State.commit_reg]; exact if_neg hr
  case memory => exact fun _ => rfl
  case counted => exact ⟨rfl, State.commit_cycles s _, rfl, rfl⟩
  case run => exact ⟨rfl, rfl, rfl, rfl, rfl⟩

theorem writesOnly_reg {s t : State} {rd : Reg} {v : Word} (h : WritesOnly s t rd v) : t.reg rd = v := h.1

theorem exec_addi (rd rs : Reg) (imm : Imm6) (s : State) :
    exec (.addi rd rs imm) s = writeResult s rd (s.reg rs + imm.signExtend 16) := by
  show writeResult s rd (addImmediate (s.reg rs) imm) = _
  rw [addImmediate_eq]

/-! ## The statements -/

/-- Settles O18: the registers by `State.reg_reset`, the cells because an unlisted cell reads 0, the keys because an empty table
has no entry; the other fields are the literals of `State.reset`. -/
theorem resetValues : Obligations.ResetValues :=
  have cells (a : Nat) : State.reset.mem.read a = 0 := Memory.read_nil a
  have keys (k : BranchKey) : tableGet State.reset.bpt k.index = none := rfl
  ⟨State.reg_reset, rfl, cells, rfl, rfl, rfl, rfl, rfl, rfl, keys⟩

/-- Settles O47: `addi` writes its sum by a plain result, which treats register 0 as any other, and `setReg` reads back what it
wrote. -/
theorem noRegisterIsHardwired : Obligations.NoRegisterIsHardwired := by
  refine ⟨fun rs imm s => ?_, setReg_read⟩
  obtain ⟨t, hnext, hwrites⟩ := writeResult_writesOnly s 0 (s.reg rs + imm.signExtend 16)
  exact ⟨t, (exec_addi 0 rs imm s).trans hnext, writesOnly_reg hwrites⟩

end Sys2Proof.Machine
end

section
/-! PROOFS. The field-level Codec of 30_encoding.md (rules R52 to R57): what a field of a word is after encoding, for each of the
three formats, and that encoding the fields of a word gives back the word. -/

namespace Sys2Proof

/-! ## The bits of a field -/

/-- Masking is reduction modulo the field's width (rule R54). -/
theorem fieldBits_toNat (n : Nat) (v : Int) : ((fieldBits n v).toNat : Int) = v % 2 ^ n := by
  rw [fieldBits, BitVec.toNat_ofInt, Int.toNat_of_nonneg (Int.emod_nonneg _ (by positivity)), Nat.cast_pow, Nat.cast_ofNat]

/-- An integer in the two's complement range of the field survives masking and sign extension (rules R54, R56). -/
theorem fieldBits_toInt {n : Nat} (v : Int) (lo : -2 ^ n ≤ v) (hi : v < 2 ^ n) : (fieldBits (n + 1) v).toInt = v :=
  BitVec.toInt_ofInt_eq_self n.succ_pos lo hi

@[simp] theorem fieldBits_natCast_toNat {n : Nat} (x : BitVec n) : fieldBits n (x.toNat : Int) = x := by
  rw [fieldBits, BitVec.ofInt_natCast, BitVec.ofNat_toNat, BitVec.setWidth_eq]

/-! ## Decoding a laid-out word -/

theorem decodeFields_rWord (o : BitVec 4) (d s t : Reg) (f : BitVec 3) :
    (decodeFields (rWord o d s t f)).opcode = o ∧ (decodeFields (rWord o d s t f)).rd = d ∧
      (decodeFields (rWord o d s t f)).rs = s ∧ (decodeFields (rWord o d s t f)).rt = t ∧
      (decodeFields (rWord o d s t f)).func = f := by
  have hd := d.isLt
  have hs := s.isLt
  have ht := t.isLt
  have hf := f.isLt
  simp only [← BitVec.toNat_inj, decodeFields_opcode, decodeFields_rd, decodeFields_rs, decodeFields_rt, decodeFields_func,
    rWord_toNat]
  omega

theorem decodeFields_iWord (o : BitVec 4) (d s : Reg) (imm : Imm6) :
    (decodeFields (iWord o d s imm)).opcode = o ∧ (decodeFields (iWord o d s imm)).rd = d ∧
      (decodeFields (iWord o d s imm)).rs = s ∧ (decodeFields (iWord o d s imm)).immI = imm := by
  have hd := d.isLt
  have hs := s.isLt
  have himm := imm.isLt
  simp only [← BitVec.toNat_inj, decodeFields_opcode, decodeFields_rd, decodeFields_rs, decodeFields_immI, iWord_toNat]
  omega

theorem decodeFields_jWord (o : BitVec 4) (imm : Imm12) :
    (decodeFields (jWord o imm)).opcode = o ∧ (decodeFields (jWord o imm)).immJ = imm := by
  have himm := imm.isLt
  simp only [← BitVec.toNat_inj, decodeFields_opcode, decodeFields_immJ, jWord_toNat]
  omega

/-- Every format has its opcode in the same four bits (rule R52). -/
theorem decodeFields_encodeFields_opcode (F : Format) (f : Fields) :
    (decodeFields (encodeFields F f)).opcode = fieldBits 4 f.opcode := by
  cases F with
  | R => exact (decodeFields_rWord ..).1
  | I => exact (decodeFields_iWord ..).1
  | J => exact (decodeFields_jWord ..).1

/-! ## Laying out the fields of a word -/

theorem rWord_decodeFields (w : Word) :
    rWord (decodeFields w).opcode (decodeFields w).rd (decodeFields w).rs (decodeFields w).rt (decodeFields w).func = w := by
  apply BitVec.eq_of_toNat_eq
  rw [rWord_toNat, decodeFields_opcode, decodeFields_rd, decodeFields_rs, decodeFields_rt, decodeFields_func]
  omega

theorem iWord_decodeFields (w : Word) :
    iWord (decodeFields w).opcode (decodeFields w).rd (decodeFields w).rs (decodeFields w).immI = w := by
  apply BitVec.eq_of_toNat_eq
  rw [iWord_toNat, decodeFields_opcode, decodeFields_rd, decodeFields_rs, decodeFields_immI]
  omega

theorem jWord_decodeFields (w : Word) : jWord (decodeFields w).opcode (decodeFields w).immJ = w := by
  apply BitVec.eq_of_toNat_eq
  rw [jWord_toNat, decodeFields_opcode, decodeFields_immJ]
  omega

/-! ## The statement -/

/-- Settles O2: each field of an encoded word is its masked input (`decodeFields_rWord` and its two siblings), which
`fieldBits_toNat` and `fieldBits_toInt` read back; masking changes no field of a word, and the fields of a word lay out to it. -/
theorem codecRoundTripsFields : Obligations.CodecRoundTripsFields := by
  refine ⟨?opcode, ?register, ?immediate, ?jump, ?word⟩
  case opcode =>
    intro F f
    rw [decodeFields_encodeFields_opcode]
    exact fieldBits_toNat 4 f.opcode
  case register =>
    intro f
    obtain ⟨-, hrd, hrs, hrt, hfunc⟩ := decodeFields_rWord (fieldBits 4 f.opcode) (fieldBits 3 f.rd) (fieldBits 3 f.rs)
      (fieldBits 3 f.rt) (fieldBits 3 f.func)
    simp only [encodeFields, hrd, hrs, hrt, hfunc]
    exact ⟨fieldBits_toNat 3 _, fieldBits_toNat 3 _, fieldBits_toNat 3 _, fieldBits_toNat 3 _⟩
  case immediate =>
    intro f
    obtain ⟨-, hrd, hrs, himm⟩ := decodeFields_iWord (fieldBits 4 f.opcode) (fieldBits 3 f.rd) (fieldBits 3 f.rs)
      (fieldBits 6 f.imm)
    simp only [encodeFields, hrd, hrs, himm]
    exact ⟨fieldBits_toNat 3 _, fieldBits_toNat 3 _, fieldBits_toNat 6 _,
      fun lo hi => fieldBits_toInt (n := 5) f.imm lo (Int.lt_add_one_of_le hi)⟩
  case jump =>
    intro f
    obtain ⟨-, himm⟩ := decodeFields_jWord (fieldBits 4 f.opcode) (fieldBits 12 f.imm)
    simp only [encodeFields, himm]
    exact ⟨fieldBits_toNat 12 _, fun lo hi => fieldBits_toInt (n := 11) f.imm lo (Int.lt_add_one_of_le hi)⟩
  case word =>
    intro w
    simp only [encodeFields, fieldBits_natCast_toNat]
    exact ⟨rWord_decodeFields w, iWord_decodeFields w, jWord_decodeFields w⟩

end Sys2Proof
end

section
/-! PROOFS. The Branch Predictor of 46_branch_predictor.md: prediction changes no result (rule R154), the 1-bit strategy (rule R147)
and the saturation of the counters (rule R155). -/

namespace Sys2Proof.Machine

/-! ## Runs, a step at a time -/

theorem reachesIn_zero (s t : State) : ReachesIn 0 s t ↔ t = s :=
  ⟨fun h => by injection h with h; exact h.symm, fun h => h ▸ rfl⟩

/-- A run of one step more is a first step and the run from its answer. -/
theorem reachesIn_succ {s u : State} (h : step s = .next u) (n : Nat) (t : State) :
    ReachesIn (n + 1) s t ↔ ReachesIn n u t := by
  have hstep : Sys2Proof.core.step s = .next u := h
  simp only [ReachesIn, Host.Core.run, hstep]

/-! ## States that differ in what belongs to prediction -/

/-- The state with everything that belongs to prediction taken from another state. -/
def State.withPredictorOf (s p : State) : State :=
  { s with strategy := p.strategy, bpt := p.bpt, stalls := p.stalls, flushes := p.flushes, staticCount := p.staticCount }

@[simp] theorem State.withPredictorOf_reg (s p : State) (r : Reg) : (s.withPredictorOf p).reg r = s.reg r := rfl
@[simp] theorem State.withPredictorOf_pc (s p : State) : (s.withPredictorOf p).pc = s.pc := rfl
@[simp] theorem State.withPredictorOf_mem (s p : State) : (s.withPredictorOf p).mem = s.mem := rfl
@[simp] theorem State.withPredictorOf_runState (s p : State) : (s.withPredictorOf p).runState = s.runState := rfl
@[simp] theorem State.withPredictorOf_cycles (s p : State) : (s.withPredictorOf p).cycles = s.cycles := rfl
@[simp] theorem State.withPredictorOf_budget (s p : State) : (s.withPredictorOf p).budget = s.budget := rfl

theorem sameArchitecture_withPredictorOf (s p : State) : SameArchitecture s (s.withPredictorOf p) :=
  ⟨rfl, rfl, rfl, rfl, rfl, rfl, rfl, rfl⟩

/-- Two states agree on everything architectural exactly when the one is the other but for prediction. -/
theorem sameArchitecture_iff (s s' : State) : SameArchitecture s s' ↔ s' = s.withPredictorOf s' := by
  constructor
  · obtain ⟨⟩ := s
    obtain ⟨⟩ := s'
    rintro ⟨hregs, hmem, hpc, hrun, hfault, hcycles, hexecuted, hbudget⟩
    subst hregs hmem hpc hrun hfault hcycles hexecuted hbudget
    rfl
  · intro h
    rw [h]
    exact sameArchitecture_withPredictorOf s s'

/-- Two outcomes are both a next state, and these agree on everything architectural. -/
def AnswerAlike (o o' : Host.Outcome State Fault Refusal) : Prop :=
  ∃ t t', o = .next t ∧ o' = .next t' ∧ SameArchitecture t t'

/-! ## The shared operations -/

/-- The effect of an instruction may differ in the misprediction and in the new table: a misprediction costs no cycle
(`State.commit_cycles`), and nothing else that is written depends on either. -/
theorem complete_alike (s p : State) (e : Effect) (mispredicted : Bool) (bpt : Option Bpt) :
    AnswerAlike (complete s e) (complete (s.withPredictorOf p) { e with mispredicted := mispredicted, bpt := bpt }) := by
  refine ⟨_, _, rfl, rfl, rfl, rfl, rfl, rfl, rfl, ?cycles, rfl, rfl⟩
  case cycles => rw [State.commit_cycles, State.commit_cycles, State.withPredictorOf_cycles]

theorem writeResult_alike (s p : State) (rd : Reg) (v : Word) :
    AnswerAlike (writeResult s rd v) (writeResult (s.withPredictorOf p) rd v) := complete_alike s p _ false none

theorem faultWith_alike (s p : State) (c : FaultCause) (info : FaultInfo) :
    AnswerAlike (faultWith s c info) (faultWith (s.withPredictorOf p) c info) :=
  ⟨_, _, rfl, rfl, sameArchitecture_withPredictorOf (s.raise c info) p⟩

theorem writeResultOr_alike (s p : State) (i : Instr) (c : FaultCause) (rd : Reg) (result : Option Word) :
    AnswerAlike (writeResultOr s i c rd result) (writeResultOr (s.withPredictorOf p) i c rd result) := by
  cases result with
  | none => exact faultWith_alike s p c _
  | some v => exact writeResult_alike s p rd v

/-- A branch goes where its condition sends it: the two predictions may differ, and only the misprediction and the table of the
effect depend on them (rule R125). -/
theorem branch_alike (s p : State) (op : BranchOp) (rd rs : Reg) (imm : Imm6) (taken : Bool) :
    AnswerAlike (branch op rd rs imm taken s) (branch op rd rs imm taken (s.withPredictorOf p)) :=
  complete_alike s p _ _ _

theorem execLw_alike (s p : State) (rd rs : Reg) (imm : Imm6) :
    AnswerAlike (execLw rd rs imm s) (execLw rd rs imm (s.withPredictorOf p)) := by
  simp only [execLw, State.withPredictorOf_reg, State.withPredictorOf_mem]
  cases memRead s.mem (effectiveAddress (s.reg rs) imm) with
  | none => exact faultWith_alike s p _ _
  | some v => exact writeResult_alike s p rd v

theorem execSw_alike (s p : State) (rd rs : Reg) (imm : Imm6) :
    AnswerAlike (execSw rd rs imm s) (execSw rd rs imm (s.withPredictorOf p)) := by
  simp only [execSw, State.withPredictorOf_reg, State.withPredictorOf_mem]
  cases memWrite s.mem (effectiveAddress (s.reg rs) imm) (s.reg rd) with
  | none => exact faultWith_alike s p _ _
  | some m => exact complete_alike s p _ false none

/-! ## Instructions and steps -/

theorem exec_alike (i : Instr) (s p : State) : AnswerAlike (exec i s) (exec i (s.withPredictorOf p)) := by
  cases i with
  | add rd rs rt => exact writeResult_alike s p rd _
  | sub rd rs rt => exact writeResult_alike s p rd _
  | slt rd rs rt => exact writeResult_alike s p rd _
  | mul rd rs rt => exact writeResult_alike s p rd _
  | div rd rs rt => exact writeResultOr_alike s p _ _ rd _
  | sllr rd rs rt => exact writeResultOr_alike s p _ _ rd _
  | srlr rd rs rt => exact writeResultOr_alike s p _ _ rd _
  | addi rd rs imm => exact writeResult_alike s p rd _
  | li rd rs imm => exact writeResult_alike s p rd _
  | lui rd rs imm => exact writeResult_alike s p rd _
  | lw rd rs imm => exact execLw_alike s p rd rs imm
  | sw rd rs imm => exact execSw_alike s p rd rs imm
  | beq rd rs imm => exact branch_alike s p .beq rd rs imm _
  | bne rd rs imm => exact branch_alike s p .bne rd rs imm _
  | sll rd rs imm => exact writeResultOr_alike s p _ _ rd _
  | srl rd rs imm => exact writeResultOr_alike s p _ _ rd _
  | sra rd rs imm => exact writeResultOr_alike s p _ _ rd _
  | jmp imm => exact complete_alike s p _ false none
  | jal imm => exact complete_alike s p _ false none

theorem runWord_alike (w : Word) (s p : State) : AnswerAlike (runWord w s) (runWord w (s.withPredictorOf p)) := by
  unfold runWord
  cases classify w with
  | sentinel => exact ⟨_, _, rfl, rfl, sameArchitecture_withPredictorOf s.halt p⟩
  | reserved _ => exact faultWith_alike s p _ _
  | instr i => exact exec_alike i s p

/-- The budget test and the fetch read only what the two states share. -/
theorem runningStep_alike (s p : State) : AnswerAlike (runningStep s) (runningStep (s.withPredictorOf p)) := by
  by_cases hbudget : s.budget < s.cycles
  · simp only [runningStep, State.withPredictorOf_budget, State.withPredictorOf_cycles, hbudget, if_true]
    exact ⟨_, _, rfl, rfl, sameArchitecture_withPredictorOf s.timeOut p⟩
  · simp only [runningStep, State.withPredictorOf_budget, State.withPredictorOf_cycles, State.withPredictorOf_mem,
      State.withPredictorOf_pc, hbudget, if_false]
    cases fetch s.mem s.pc with
    | none => exact faultWith_alike s p _ _
    | some w => exact runWord_alike w s p

theorem step_alike (s p : State) : AnswerAlike (step s) (step (s.withPredictorOf p)) := by
  simp only [step, stepOf, State.withPredictorOf_runState]
  have stays : AnswerAlike (.next s) (.next (s.withPredictorOf p)) :=
    ⟨_, _, rfl, rfl, sameArchitecture_withPredictorOf s p⟩
  cases s.runState with
  | running => exact runningStep_alike s p
  | halted => exact stays
  | timedOut => exact stays
  | faulted => exact stays

/-- One step of each of two agreeing states keeps the agreement. -/
theorem step_sameArchitecture {s s' : State} (h : SameArchitecture s s') : AnswerAlike (step s) (step s') := by
  rw [(sameArchitecture_iff s s').1 h]
  exact step_alike s s'

/-- Settles O52, by induction on the number of steps: `step_sameArchitecture` takes both runs one step on. -/
theorem predictionNeverChangesResults : Obligations.PredictionNeverChangesResults := by
  intro n
  induction n with
  | zero =>
    intro s s' t hsame hrun
    rw [(reachesIn_zero s t).1 hrun]
    exact ⟨s', (reachesIn_zero s' s').2 rfl, hsame⟩
  | succ n ih =>
    intro s s' t hsame hrun
    obtain ⟨u, u', hu, hu', hsame'⟩ := step_sameArchitecture hsame
    obtain ⟨t', hrun', ht⟩ := ih u u' t hsame' ((reachesIn_succ hu n t).1 hrun)
    exact ⟨t', (reachesIn_succ hu' n t').2 hrun', ht⟩

/-! ## The 1-bit strategy -/

theorem BranchKey.index_injective {k q : BranchKey} (h : k.index = q.index) : k = q := by
  obtain ⟨op, a, b⟩ := k
  obtain ⟨op', a', b'⟩ := q
  have ha := a.isLt
  have hb := b.isLt
  have ha' := a'.isLt
  have hb' := b'.isLt
  simp only [BranchKey.index_eq] at h
  have hop : op = op' := by
    cases op with
    | beq => cases op' with
      | beq => rfl
      | bne => simp only [reduceCtorEq, if_true, if_false] at h; omega
    | bne => cases op' with
      | beq => simp only [reduceCtorEq, if_true, if_false] at h; omega
      | bne => rfl
  subst hop
  rw [BranchKey.mk.injEq, ← BitVec.toNat_inj, ← BitVec.toNat_inj]
  exact ⟨rfl, by omega, by omega⟩

/-- An update changes the state of no other key, under every strategy (rule R144). -/
theorem entryOf_update_of_ne (st : Strategy) (t : Bpt) {k q : BranchKey} (h : q ≠ k) (taken : Bool) :
    entryOf st (update st t k taken) q = entryOf st t q := by
  cases hi : st.initial with
  | none => rw [update_static hi]
  | some v => rw [entryOf_update (by rw [hi]; rfl), if_neg (fun hq => h (BranchKey.index_injective hq))]

theorem predict_oneBit_unseen {t : Bpt} {k : BranchKey} (h : tableGet t k.index = none) : (predict .oneBit t k).1 = true := by
  show Strategy.predicts .oneBit (entryOf .oneBit t k) = true
  rw [entryOf, h]
  rfl

theorem tableGet_update_oneBit (t : Bpt) (k : BranchKey) (taken : Bool) :
    tableGet (update .oneBit t k taken) k.index = some (if taken then 1 else 0) := by
  show tableGet (tableSet t k.index (if taken then 1 else 0)) k.index = _
  rw [tableGet_set, if_pos rfl]

theorem predict_oneBit_update (t : Bpt) (k : BranchKey) (taken : Bool) :
    (predict .oneBit (update .oneBit t k taken) k).1 = taken := by
  show Strategy.predicts .oneBit (entryOf .oneBit (update .oneBit t k taken) k) = taken
  rw [entryOf, tableGet_update_oneBit]
  cases taken <;> rfl

/-- Settles O49: an update stores the outcome itself, and only under its own key. -/
theorem oneBitPredictsLastOutcome : Obligations.OneBitPredictsLastOutcome := fun t k taken =>
  ⟨predict_oneBit_unseen, tableGet_update_oneBit t k taken, predict_oneBit_update t k taken,
    fun _ hq => congrArg (Strategy.predicts .oneBit) (entryOf_update_of_ne .oneBit t hq taken)⟩

/-! ## Saturation -/

theorem saturate_taken {top : Nat} (htop : top < 8) (v : BitVec 3) :
    (saturate top v true).toNat = min top (v.toNat + 1) :=
  (BitVec.toNat_ofNat _ 3).trans (Nat.mod_eq_of_lt (by omega))

theorem saturate_notTaken (top : Nat) (v : BitVec 3) : (saturate top v false).toNat = v.toNat - 1 :=
  (BitVec.toNat_ofNat _ 3).trans (Nat.mod_eq_of_lt (by omega))

/-- `k` taken outcomes raise a counter by `k`, up to `top` (rule R155). -/
theorem saturate_taken_iterate {top : Nat} (htop : top < 8) {v : BitVec 3} (hv : v.toNat ≤ top) (k : Nat) :
    ((fun u => saturate top u true)^[k] v).toNat = min top (v.toNat + k) := by
  induction k with
  | zero => exact (Nat.min_eq_right hv).symm
  | succ k ih =>
    rw [Function.iterate_succ_apply', saturate_taken htop, ih]
    omega

/-- `k` not-taken outcomes lower a counter by `k`, down to 0 (rule R155). -/
theorem saturate_notTaken_iterate (top : Nat) (v : BitVec 3) (k : Nat) :
    ((fun u => saturate top u false)^[k] v).toNat = v.toNat - k := by
  induction k with
  | zero => rfl
  | succ k ih =>
    rw [Function.iterate_succ_apply', saturate_notTaken, ih]
    omega

/-- The 2-bit and the 8-state strategy are saturating counters (rules R149, R151). -/
theorem advance_eq_saturate {st : Strategy} {top : Nat} (h : (st = .twoBit ∧ top = 3) ∨ (st = .eightState ∧ top = 7)) :
    st.advance = saturate top := by
  obtain ⟨rfl, rfl⟩ | ⟨rfl, rfl⟩ := h <;> rfl

/-- Settles O51: both strategies are saturating counters, whose iterates `saturate_taken_iterate` and `saturate_notTaken_iterate`
give; from `top` outcomes on, these are the extremes. -/
theorem saturationReachesExtremes : Obligations.SaturationReachesExtremes := by
  intro st top hst v k hv
  have htop : top < 8 := by omega
  rw [advance_eq_saturate hst, saturate_taken_iterate htop hv, saturate_notTaken_iterate]
  exact ⟨rfl, rfl, fun hk => by omega⟩

end Sys2Proof.Machine
end

section
/-! PROOFS. Which words are instructions (30_encoding.md rules R57, R60, R61, R64): `classify` inverts `encode`, and the words left over are
the sentinel and the reserved encodings. -/

namespace Sys2Proof

/-! ## The rows of the opcode map -/

theorem rowMatches_iff (o : BitVec 4) (f : BitVec 3) (m : Mnemonic) :
    rowMatches o f m = true ↔ opcodeOf m = o ∧ ∀ g, functionOf m = some g → g = f := by
  unfold rowMatches
  cases functionOf m with
  | none => simp
  | some g => simp

/-- No two rows of the opcode map overlap: a row that matches is the row `mnemonicAt` selects (rule R64). -/
theorem mnemonicAt_eq_some_iff (o : BitVec 4) (f : BitVec 3) (m : Mnemonic) :
    mnemonicAt o f = some m ↔ rowMatches o f m = true := by
  refine ⟨fun h => List.find?_some h, fun h => ?_⟩
  cases m <;> revert o f <;> decide

/-- The rows leave out opcodes 13 to 15, and function code 7 under opcode 0 (rule R60). -/
theorem mnemonicAt_eq_none_iff (o : BitVec 4) (f : BitVec 3) :
    mnemonicAt o f = none ↔ 13 ≤ o.toNat ∨ (o.toNat = 0 ∧ f.toNat = 7) := by
  revert o f; decide

/-- The words that spell an instruction (rules R61, R64). -/
theorem classify_eq_instr_iff (w : Word) (i : Instr) :
    classify w = .instr i ↔ w ≠ 0 ∧ ∃ m, rowMatches (decodeFields w).opcode (decodeFields w).func m = true ∧
      Instr.ofFields (decodeFields w) m = i := by
  simp only [← mnemonicAt_eq_some_iff]
  rcases classify_cases w with ⟨hw, hc⟩ | ⟨hw, m, hm, hc⟩ | ⟨-, hm, why, hc⟩
  · rw [hc]; exact ⟨nofun, fun h => absurd hw h.1⟩
  · rw [hc, hm, Classified.instr.injEq]
    exact ⟨fun h => ⟨hw, m, rfl, h⟩, fun ⟨_, _, hm', hi⟩ => Option.some.inj hm' ▸ hi⟩
  · rw [hc, hm]; exact ⟨nofun, fun ⟨_, _, hm', _⟩ => nomatch hm'⟩

/-! ## Encoding an instruction and reading its fields back -/

/-- The fields of a word stand in the row of an instruction and hold its operands (rules R52, R55). -/
def Instr.ReadFrom (i : Instr) (w : Word) : Prop :=
  rowMatches (decodeFields w).opcode (decodeFields w).func i.mnemonic = true ∧ Instr.ofFields (decodeFields w) i.mnemonic = i

theorem rowMatches_encodeR {m : Mnemonic} {f : BitVec 3} (h : functionOf m = some f) (rd rs rt : Reg) :
    rowMatches (decodeFields (encodeR m rd rs rt)).opcode (decodeFields (encodeR m rd rs rt)).func m = true := by
  obtain ⟨ho, -, -, -, hf⟩ := decodeFields_rWord (opcodeOf m) rd rs rt ((functionOf m).getD 0)
  rw [rowMatches_iff, encodeR, ho, hf, h]
  exact ⟨rfl, fun g hg => (Option.some.inj hg).symm⟩

theorem rowMatches_encodeI {m : Mnemonic} (h : functionOf m = none) (rd rs : Reg) (imm : Imm6) :
    rowMatches (decodeFields (encodeI m rd rs imm)).opcode (decodeFields (encodeI m rd rs imm)).func m = true := by
  rw [rowMatches_iff, encodeI, (decodeFields_iWord _ rd rs imm).1, h]
  exact ⟨rfl, nofun⟩

theorem rowMatches_encodeJ {m : Mnemonic} (h : functionOf m = none) (imm : Imm12) :
    rowMatches (decodeFields (encodeJ m imm)).opcode (decodeFields (encodeJ m imm)).func m = true := by
  rw [rowMatches_iff, encodeJ, (decodeFields_jWord _ imm).1, h]
  exact ⟨rfl, nofun⟩

/-- Each constructor's fields are those of its format, which decoding gives back. -/
theorem Instr.readFrom_encode (i : Instr) : i.ReadFrom (encode i) := by
  cases i with
  | add rd rs rt | sub rd rs rt | slt rd rs rt | mul rd rs rt | div rd rs rt | sllr rd rs rt | srlr rd rs rt =>
    exact ⟨rowMatches_encodeR rfl rd rs rt, by
      simp only [Instr.ofFields, Instr.mnemonic, encode, encodeR, decodeFields_rWord]⟩
  | addi rd rs imm | li rd rs imm | lui rd rs imm | lw rd rs imm | sw rd rs imm | beq rd rs imm | bne rd rs imm
  | sll rd rs imm | srl rd rs imm | sra rd rs imm =>
    exact ⟨rowMatches_encodeI rfl rd rs imm, by
      simp only [Instr.ofFields, Instr.mnemonic, encode, encodeI, decodeFields_iWord]⟩
  | jmp imm | jal imm =>
    exact ⟨rowMatches_encodeJ rfl imm, by simp only [Instr.ofFields, Instr.mnemonic, encode, encodeJ, decodeFields_jWord]⟩

theorem encodeR_decodeFields {w : Word} {m : Mnemonic} {f : BitVec 3} (hf : functionOf m = some f)
    (h : rowMatches (decodeFields w).opcode (decodeFields w).func m = true) :
    encodeR m (decodeFields w).rd (decodeFields w).rs (decodeFields w).rt = w := by
  obtain ⟨ho, hfunc⟩ := (rowMatches_iff _ _ m).1 h
  rw [encodeR, ho, hf, hfunc f hf]
  exact rWord_decodeFields w

theorem encodeI_decodeFields {w : Word} {m : Mnemonic} (h : rowMatches (decodeFields w).opcode (decodeFields w).func m = true) :
    encodeI m (decodeFields w).rd (decodeFields w).rs (decodeFields w).immI = w := by
  rw [encodeI, ((rowMatches_iff _ _ m).1 h).1, iWord_decodeFields]

theorem encodeJ_decodeFields {w : Word} {m : Mnemonic} (h : rowMatches (decodeFields w).opcode (decodeFields w).func m = true) :
    encodeJ m (decodeFields w).immJ = w := by
  rw [encodeJ, ((rowMatches_iff _ _ m).1 h).1, jWord_decodeFields]

/-- No bit of a word that stands in a row is dropped: the row fixes what the operands do not hold. -/
theorem encode_ofFields {w : Word} {m : Mnemonic} (h : rowMatches (decodeFields w).opcode (decodeFields w).func m = true) :
    encode (Instr.ofFields (decodeFields w) m) = w := by
  cases m with
  | add | sub | slt | mul | div | sllr | srlr => exact encodeR_decodeFields rfl h
  | addi | li | lui | lw | sw | beq | bne | sll | srl | sra => exact encodeI_decodeFields h
  | jmp | jal => exact encodeJ_decodeFields h

/-! ## The sentinel -/

theorem Instr.wellFormed_iff (i : Instr) : i.wellFormed = true ↔ i ≠ .add 0 0 0 := by
  cases i with
  | add rd rs rt => simp [Instr.wellFormed, Instr.spellsSentinel, imp_iff_not_or, or_assoc]
  | _ => simp [Instr.wellFormed, Instr.spellsSentinel]

/-- The well-formed instructions are those whose word is not the sentinel (rule R61): the word 0 stands in the row of `add` with all
operands 0, and in no other. -/
theorem Instr.wellFormed_iff_encode_ne (i : Instr) : i.wellFormed = true ↔ encode i ≠ 0 := by
  rw [Instr.wellFormed_iff, not_iff_not]
  refine ⟨fun h => by rw [h]; rfl, fun h => ?_⟩
  obtain ⟨hrow, hi⟩ := h ▸ i.readFrom_encode
  have hadd : i.mnemonic = .add := Option.some.inj (((mnemonicAt_eq_some_iff _ _ _).2 hrow).symm.trans rfl)
  rw [← hi, hadd]
  rfl

/-- The encoding of an instruction spells it, unless it is the sentinel (rules R57, R64). -/
theorem classify_of_encode {w : Word} {i : Instr} (h : encode i = w) (hw : w ≠ 0) : classify w = .instr i :=
  (classify_eq_instr_iff w i).2 ⟨hw, i.mnemonic, h ▸ i.readFrom_encode⟩

theorem encode_of_classify {w : Word} {i : Instr} (h : classify w = .instr i) : encode i = w := by
  obtain ⟨-, m, hrow, rfl⟩ := (classify_eq_instr_iff w i).1 h
  exact encode_ofFields hrow

theorem classify_eq_sentinel_iff (w : Word) : classify w = .sentinel ↔ w = 0 := by
  rcases classify_cases w with ⟨hw, hc⟩ | ⟨hw, m, -, hc⟩ | ⟨hw, -, why, hc⟩ <;> rw [hc]
  · exact iff_of_true rfl hw
  · exact iff_of_false nofun hw
  · exact iff_of_false nofun hw

/-- The reserved encodings (rule R60); the word 0 is none of them. -/
theorem classify_eq_reserved_iff (w : Word) :
    (∃ why, classify w = .reserved why) ↔ 13 * 4096 ≤ w.toNat ∨ (w.toNat < 4096 ∧ w.toNat % 8 = 7) := by
  have hnone := mnemonicAt_eq_none_iff (decodeFields w).opcode (decodeFields w).func
  rw [decodeFields_opcode, decodeFields_func] at hnone
  have hfree : (∃ why, classify w = .reserved why) ↔ w ≠ 0 ∧ mnemonicAt (decodeFields w).opcode (decodeFields w).func = none := by
    rcases classify_cases w with ⟨hw, hc⟩ | ⟨hw, m, hm, hc⟩ | ⟨hw, hm, why, hc⟩ <;> rw [hc]
    · exact iff_of_false nofun fun h => h.1 hw
    · exact iff_of_false nofun fun h => nomatch hm.symm.trans h.2
    · exact iff_of_true ⟨why, rfl⟩ ⟨hw, hm⟩
  have hzero : w = 0 ↔ w.toNat = 0 := (BitVec.toNat_inj (y := 0)).symm
  rw [hfree, hnone, ne_eq, hzero]
  omega

/-! ## The statements -/

/-- Settles O1: an instruction's word has its row and its operands (`Instr.readFrom_encode`), and a word in a row is the encoding of
what is read from it (`encode_ofFields`). -/
theorem encodeAndClassifyAgree : Obligations.EncodeAndClassifyAgree := by
  refine ⟨fun i hwf => classify_of_encode rfl (i.wellFormed_iff_encode_ne.1 hwf), fun w i h => ?_⟩
  have hw : encode i = w := encode_of_classify h
  have hne : w ≠ 0 := ((classify_eq_instr_iff w i).1 h).1
  exact ⟨hw, i.wellFormed_iff_encode_ne.2 (hw ▸ hne)⟩

/-- Settles O3: a word is reserved when it is not 0 and stands in no row. -/
theorem sentinelAndReservedWords : Obligations.SentinelAndReservedWords := fun w =>
  ⟨classify_eq_sentinel_iff w, classify_eq_reserved_iff w⟩

/-- Settles O4: each word is the encoding of its instruction, field by field. -/
theorem writtenOutWordsDecode : Obligations.WrittenOutWordsDecode := by
  unfold Obligations.WrittenOutWordsDecode
  and_intros <;> exact classify_of_encode rfl (by decide)

end Sys2Proof
end

section
/-! PROOFS. The step of 40_execution_unit.md: one equation for each way a step goes (rules R81 to R88), what a fault leaves alone
(rule R91), and what follows of every step from the inversions `exec_shape` and `step_cases`. -/

namespace Sys2Proof.Machine

/-! ## One equation per way a step goes -/

theorem step_of_terminal {s : State} (h : s.runState ≠ .running) : step s = .next s := by
  unfold step stepOf
  cases hr : s.runState with
  | running => exact absurd hr h
  | halted | timedOut | faulted => rfl

theorem step_of_running {s : State} (h : s.runState = .running) : step s = runningStep s := by
  unfold step stepOf
  rw [h]

theorem step_of_overBudget {s : State} (hr : s.runState = .running) (hb : s.budget < s.cycles) : step s = .next s.timeOut := by
  rw [step_of_running hr]
  exact if_pos hb

theorem step_of_fetchFault {s : State} (h : InBudget s) (hpc : s.pc < 0 ∨ 511 < s.pc) :
    step s = .next (s.raise .fetchOutOfRange (.address s.pc)) := by
  obtain ⟨hr, hb⟩ := h
  rw [step_of_running hr, runningStep, if_neg (Nat.not_lt.2 hb)]
  rcases fetch_cases s.mem s.pc with ⟨h0, h1, -⟩ | ⟨-, hf⟩
  · omega
  · rw [hf]; rfl

/-- Within the budget and with `pc` inside memory the step is that of the fetched word. -/
theorem step_of_fetched {s : State} (h : InBudget s) (h0 : 0 ≤ s.pc) (h1 : s.pc ≤ 511) :
    step s = runWord (s.mem.read s.pc.toNat) s := by
  obtain ⟨hr, hb⟩ := h
  rw [step_of_running hr, runningStep, if_neg (Nat.not_lt.2 hb)]
  rcases fetch_cases s.mem s.pc with ⟨-, -, hf⟩ | ⟨hpc, -⟩
  · rw [hf]
  · omega

theorem runWord_of_instr {w : Word} {i : Instr} (h : classify w = .instr i) (s : State) : runWord w s = exec i s := by
  simp only [runWord, h]

theorem runWord_zero (s : State) : runWord 0 s = .next s.halt := by
  simp only [runWord, (classify_eq_sentinel_iff 0).2 rfl]

theorem runWord_of_reserved {w : Word} {why : Reserved} (h : classify w = .reserved why) (s : State) :
    runWord w s = .next (s.raise .illegalInstruction (.word w)) := by
  simp only [runWord, h, faultWith]

/-- A raised fault has the frame of rule R91. -/
theorem raise_faultsAs (s : State) (c : FaultCause) (info : FaultInfo) : FaultsAs s (s.raise c info) c info :=
  ⟨rfl, rfl, fun _ => rfl, fun _ => rfl, rfl, rfl, rfl, rfl, rfl, rfl, rfl, rfl, rfl⟩

/-! ## The statements about one way of a step -/

/-- Settles O5. -/
theorem stepRunsFetchedInstruction : Obligations.StepRunsFetchedInstruction := fun s _ hs h0 h1 hi =>
  (step_of_fetched hs h0 h1).trans (runWord_of_instr hi s)

/-- Settles O6. -/
theorem timeoutComesFirst : Obligations.TimeoutComesFirst := fun _ hr hb => step_of_overBudget hr hb

/-- Settles O7. -/
theorem fetchOutsideMemoryFaults : Obligations.FetchOutsideMemoryFaults := fun s hs hpc =>
  ⟨_, step_of_fetchFault hs hpc, raise_faultsAs s _ _⟩

/-- Settles O8. -/
theorem haltChangesOnlyTheRunState : Obligations.HaltChangesOnlyTheRunState := by
  intro s hs h0 h1 hzero
  rw [step_of_fetched hs h0 h1, hzero]
  exact runWord_zero s

/-- Settles O10: the words named are those `classify` finds reserved. -/
theorem reservedWordFaults : Obligations.ReservedWordFaults := by
  intro s w hs h0 h1 hw hreserved
  obtain ⟨why, hwhy⟩ := (classify_eq_reserved_iff w).2 hreserved
  rw [step_of_fetched hs h0 h1, hw]
  exact ⟨_, runWord_of_reserved hwhy s, raise_faultsAs s _ _⟩

/-- Settles O11. -/
theorem terminalStatesStay : Obligations.TerminalStatesStay := fun _ h => step_of_terminal h

theorem runWord_answers (w : Word) (s : State) : ∃ t, runWord w s = .next t := by
  unfold runWord
  cases classify w with
  | sentinel => exact ⟨_, rfl⟩
  | reserved why => exact ⟨_, rfl⟩
  | instr i =>
    obtain ⟨t, ht, -⟩ := exec_shape i s
    exact ⟨t, ht⟩

theorem runningStep_answers (s : State) : ∃ t, runningStep s = .next t := by
  unfold runningStep
  by_cases hb : s.budget < s.cycles
  · rw [if_pos hb]
    exact ⟨_, rfl⟩
  · rw [if_neg hb]
    cases fetch s.mem s.pc with
    | none => exact ⟨_, rfl⟩
    | some w => exact runWord_answers w s

/-- Settles O13: the two ends of a run and a fault are next states, and so is what every instruction answers (`exec_shape`). -/
theorem stepAlwaysAnswersNext : Obligations.StepAlwaysAnswersNext := by
  intro s
  by_cases hr : s.runState = .running
  · rw [step_of_running hr]
    exact runningStep_answers s
  · exact ⟨s, step_of_terminal hr⟩

/-! ## What follows of every step -/

/-- The bounds of what a completed instruction computes: its cost, its new `pc`, and the memory and the table it may write. -/
structure EffectBounded (s : State) (e : Effect) : Prop where
  cost : 1 ≤ e.cost ∧ e.cost ≤ 3
  newPc : s.pc - 2047 ≤ e.newPc ∧ e.newPc ≤ s.pc + 2048
  mem : e.mem = none ∨ ∃ a v, a < 512 ∧ e.mem = some (s.mem.write a v)
  bpt : e.bpt = none ∨ ∃ key taken, e.bpt = some (update s.strategy (predict s.strategy s.bpt key).2 key taken)

theorem sext6_bounds (imm : Imm6) : -32 ≤ sext6 imm ∧ sext6 imm ≤ 31 := by
  have lo := BitVec.le_toInt imm
  have hi := BitVec.toInt_lt (x := imm)
  unfold sext6
  omega

theorem sext12_bounds (imm : Imm12) : -2048 ≤ sext12 imm ∧ sext12 imm ≤ 2047 := by
  have lo := BitVec.le_toInt imm
  have hi := BitVec.toInt_lt (x := imm)
  unfold sext12
  omega

theorem cycPlain_bounds : 1 ≤ cycPlain ∧ cycPlain ≤ 3 := by decide

theorem branchCost_bounds (taken : Bool) :
    1 ≤ (if taken then cycBrTaken else cycBrNotTaken) ∧ (if taken then cycBrTaken else cycBrNotTaken) ≤ 3 := by
  revert taken; decide

/-- An instruction completes with a bounded effect, or it raises a fault and changes nothing else. -/
theorem execShape_cases {s t : State} (h : ExecShape s t) :
    (∃ e, EffectBounded s e ∧ t = s.commit e) ∨ ∃ c info, t = s.raise c info := by
  cases h with
  | result rd v =>
    refine .inl ⟨_, ⟨cycPlain_bounds, ?_, .inl rfl, .inl rfl⟩, rfl⟩
    show s.pc - 2047 ≤ s.pc + 1 ∧ s.pc + 1 ≤ s.pc + 2048
    omega
  | store a v ha =>
    refine .inl ⟨_, ⟨cycPlain_bounds, ?_, .inr ⟨a.toNat, v, by omega, rfl⟩, .inl rfl⟩, rfl⟩
    show s.pc - 2047 ≤ s.pc + 1 ∧ s.pc + 1 ≤ s.pc + 2048
    omega
  | branch key imm taken =>
    have himm := sext6_bounds imm
    refine .inl ⟨_, ⟨branchCost_bounds taken, ?_, .inl rfl, .inr ⟨key, taken, rfl⟩⟩, rfl⟩
    simp only [State.npc_eq]
    split <;> omega
  | jump imm link =>
    have himm := sext12_bounds imm
    refine .inl ⟨_, ⟨cycPlain_bounds, ?_, .inl rfl, .inl rfl⟩, rfl⟩
    simp only [State.npc_eq]
    omega
  | faults c info _ => exact .inr ⟨c, info, rfl⟩

/-- What relates the two ends of every step: it holds when nothing changes, and each way a step goes establishes it. -/
structure StepRelation (R : State → State → Prop) : Prop where
  stay : ∀ s, s.runState ≠ .running → R s s
  timeOut : ∀ s, s.runState = .running → R s s.timeOut
  halt : ∀ s, s.runState = .running → R s s.halt
  raise : ∀ s c info, s.runState = .running → R s (s.raise c info)
  commit : ∀ s e, InBudget s → 0 ≤ s.pc → s.pc ≤ 511 → EffectBounded s e → R s (s.commit e)

theorem StepRelation.holds {R : State → State → Prop} (hR : StepRelation R) {s t : State} (h : step s = .next t) : R s t := by
  rcases step_cases h with ⟨hr, rfl⟩ | ⟨hr, -, rfl⟩ |
    ⟨hr, hb, ⟨-, rfl⟩ | ⟨h0, h1, ⟨-, rfl⟩ | ⟨-, -, rfl⟩ | ⟨i, -, hexec⟩⟩⟩
  · exact hR.stay _ hr
  · exact hR.timeOut s hr
  · exact hR.raise s _ _ hr
  · exact hR.halt s hr
  · exact hR.raise s _ _ hr
  · obtain ⟨u, hu, hshape⟩ := exec_shape i s
    obtain rfl : u = t := by injection hu.symm.trans hexec
    rcases execShape_cases hshape with ⟨e, he, rfl⟩ | ⟨c, info, rfl⟩
    · exact hR.commit s e ⟨hr, hb⟩ h0 h1 he
    · exact hR.raise s c info hr

/-! ## Memory stays canonical -/

theorem commit_memoryCanonical {s : State} {e : Effect} (he : EffectBounded s e) (h : MemoryCanonical s) :
    MemoryCanonical (s.commit e) := by
  unfold MemoryCanonical at h ⊢
  rw [State.commit_mem]
  rcases he.mem with hm | ⟨a, v, ha, hm⟩ <;> rw [hm]
  · exact h
  · exact Memory.write_wf h ha

theorem memoryCanonical_stepRelation : StepRelation fun s t => MemoryCanonical s → MemoryCanonical t where
  stay _ _ h := h
  timeOut _ _ h := h
  halt _ _ h := h
  raise _ _ _ _ h := h
  commit _ _ _ _ _ he h := commit_memoryCanonical he h

/-- Settles O20: the one write of a step is at an address of the array (`EffectBounded.mem`). -/
theorem stepKeepsMemoryCanonical : Obligations.StepKeepsMemoryCanonical := fun _ _ hs h =>
  memoryCanonical_stepRelation.holds h hs

/-! ## The predictor table stays legal -/

theorem Bpt.wf_iff (st : Strategy) (t : Bpt) :
    Bpt.wf st t = true ↔
      t.Pairwise (fun x y => x.1 < y.1) ∧ (∀ e ∈ t, e.1 < 128 ∧ e.2.toNat ≤ st.top) ∧ (st.initial = none → t = []) := by
  simp only [Bpt.wf, Bool.and_eq_true, tableSorted_iff, List.all_eq_true, decide_eq_true_eq, Bool.or_eq_true,
    List.isEmpty_iff, and_assoc]
  cases st.initial <;> simp

theorem Strategy.initial_le_top {st : Strategy} {v : BitVec 3} (h : st.initial = some v) : v.toNat ≤ st.top := by
  revert v
  cases st <;> decide

theorem Strategy.advance_le_top (st : Strategy) {v : BitVec 3} (hv : v.toNat ≤ st.top) (taken : Bool) :
    (st.advance v taken).toNat ≤ st.top := by
  cases st with
  | alwaysTaken | alwaysNotTaken => exact hv
  | oneBit =>
    show (if taken then (1 : BitVec 3) else 0).toNat ≤ 1
    revert taken; decide
  | twoBit | eightState =>
    cases taken
    · exact (saturate_notTaken _ v).trans_le ((Nat.sub_le _ 1).trans hv)
    · exact (saturate_taken (by decide) v).trans_le (Nat.min_le_left _ _)

/-- A legal table set at a key's place to a state of the strategy is legal. -/
theorem Bpt.wf_tableSet {st : Strategy} {t : Bpt} (h : Bpt.wf st t = true) (hdyn : st.initial ≠ none) (k : BranchKey)
    {v : BitVec 3} (hv : v.toNat ≤ st.top) : Bpt.wf st (tableSet t k.index v) = true := by
  rw [Bpt.wf_iff] at h ⊢
  obtain ⟨hsorted, hentries, -⟩ := h
  refine ⟨tableSet_sorted _ _ hsorted, fun e he => ?_, fun hnone => absurd hnone hdyn⟩
  rcases mem_tableSet he with rfl | he
  · exact ⟨k.index_lt, hv⟩
  · exact hentries e he

theorem entryOf_le_top {st : Strategy} {t : Bpt} (h : Bpt.wf st t = true) (k : BranchKey) : (entryOf st t k).toNat ≤ st.top := by
  rw [entryOf]
  cases hg : tableGet t k.index with
  | some v => exact (((Bpt.wf_iff st t).1 h).2.1 _ (tableGet_some_mem hg)).2
  | none => cases hi : st.initial with
    | none => exact Nat.zero_le _
    | some v => exact Strategy.initial_le_top hi

theorem ensureEntry_wf {st : Strategy} {t : Bpt} (h : Bpt.wf st t = true) (k : BranchKey) :
    Bpt.wf st (ensureEntry st t k) = true := by
  unfold ensureEntry
  split
  · rename_i v hi _
    exact Bpt.wf_tableSet h (by rw [hi]; nofun) k (Strategy.initial_le_top hi)
  · exact h

theorem update_wf {st : Strategy} {t : Bpt} (h : Bpt.wf st t = true) (k : BranchKey) (taken : Bool) :
    Bpt.wf st (update st t k taken) = true := by
  cases hi : st.initial with
  | none => rw [update_static hi]; exact h
  | some v =>
    simp only [update, hi]
    exact Bpt.wf_tableSet h (by rw [hi]; nofun) k (st.advance_le_top (entryOf_le_top h k) taken)

theorem commit_tableLegal {s : State} {e : Effect} (he : EffectBounded s e) (h : TableLegal s) : TableLegal (s.commit e) := by
  unfold TableLegal at h ⊢
  rw [State.commit_bpt, State.commit_strategy]
  rcases he.bpt with hb | ⟨key, taken, hb⟩ <;> rw [hb]
  · exact h
  · exact update_wf (ensureEntry_wf h key) key taken

theorem tableLegal_stepRelation : StepRelation fun s t => TableLegal s → TableLegal t where
  stay _ _ h := h
  timeOut _ _ h := h
  halt _ _ h := h
  raise _ _ _ _ h := h
  commit _ _ _ _ _ he h := commit_tableLegal he h

/-- Settles O21: prediction and update set a key's own place to a state of the strategy. -/
theorem stepKeepsTableLegal : Obligations.StepKeepsTableLegal := fun _ _ hs h => tableLegal_stepRelation.holds h hs

/-! ## `pc`, counters and the fault record -/

theorem pcInRange_stepRelation : StepRelation fun s t => PcInRange s → PcInRange t where
  stay _ _ h := h
  timeOut _ _ h := h
  halt _ _ h := h
  raise _ _ _ _ h := h
  commit s e _ h0 h1 he _ := by
    obtain ⟨lo, hi⟩ := he.newPc
    unfold PcInRange
    rw [State.commit_pc]
    omega

/-- Settles O22: an instruction is executed at a `pc` of 0 to 511 only, and moves it by -2047 to 2048. -/
theorem stepKeepsPcInRange : Obligations.StepKeepsPcInRange := fun _ _ hs h => pcInRange_stepRelation.holds h hs

theorem countersConsistent_stepRelation : StepRelation fun s t => CountersConsistent s → CountersConsistent t where
  stay _ _ h := h
  timeOut _ _ h := h
  halt _ _ h := h
  raise _ _ _ _ h := h
  commit s e _ _ _ he h := by
    obtain ⟨lo, hi⟩ := he.cost
    unfold CountersConsistent at h ⊢
    simp only [State.commit_flushes, State.commit_stalls, State.commit_executed, State.commit_cycles]
    split <;> omega

theorem overshootBounded_stepRelation : StepRelation fun s t => OvershootBounded s → OvershootBounded t where
  stay _ _ h := h
  timeOut _ _ h := h
  halt _ _ h := h
  raise _ _ _ _ h := h
  commit s e hs _ _ he _ := by
    obtain ⟨-, hb⟩ := hs
    obtain ⟨-, hi⟩ := he.cost
    unfold OvershootBounded
    rw [State.commit_cycles, State.commit_budget]
    omega

/-- Settles O24: a completed instruction costs 1 to 3 cycles, from a state within the budget. -/
theorem stepKeepsCountersConsistent : Obligations.StepKeepsCountersConsistent :=
  ⟨fun _ _ hs h => countersConsistent_stepRelation.holds h hs, fun _ _ hs h => overshootBounded_stepRelation.holds h hs⟩

/-- A Running state with the fault record kept still has none; a raised fault has one. -/
theorem faultRecorded_stepRelation : StepRelation fun s t => FaultRecorded s → FaultRecorded t where
  stay _ _ h := h
  timeOut s hr h := by simpa [FaultRecorded, hr] using h
  halt s hr h := by simpa [FaultRecorded, hr] using h
  raise _ _ _ _ _ := iff_of_true rfl rfl
  commit _ _ _ _ _ _ h := h

/-- Settles O23. -/
theorem stepKeepsFaultRecorded : Obligations.StepKeepsFaultRecorded := fun _ _ hs h => faultRecorded_stepRelation.holds h hs

theorem executed_stepRelation :
    StepRelation fun s t => t.executed = s.executed + if s.runState = .running ∧ t.runState = .running then 1 else 0 where
  stay s hr := by rw [if_neg (fun h => hr h.1), Nat.add_zero]
  timeOut s _ := by simp
  halt s _ := by simp
  raise s _ _ _ := by simp
  commit s e hs _ _ _ := by rw [if_pos ⟨hs.1, hs.1⟩, State.commit_executed]

/-- Settles O14: of the ways a step goes, only a commit ends in Running, and only it counts. -/
theorem executedCountsCompletedInstructions : Obligations.ExecutedCountsCompletedInstructions := fun _ _ h =>
  executed_stepRelation.holds h

theorem counters_stepRelation :
    StepRelation fun s t =>
      (s.cycles ≤ t.cycles ∧ s.executed ≤ t.executed ∧ s.stalls ≤ t.stalls ∧ s.flushes ≤ t.flushes) ∧
        t.budget = s.budget ∧ t.strategy = s.strategy ∧ t.staticCount = s.staticCount where
  stay _ _ := ⟨⟨le_rfl, le_rfl, le_rfl, le_rfl⟩, rfl, rfl, rfl⟩
  timeOut _ _ := ⟨⟨le_rfl, le_rfl, le_rfl, le_rfl⟩, rfl, rfl, rfl⟩
  halt _ _ := ⟨⟨le_rfl, le_rfl, le_rfl, le_rfl⟩, rfl, rfl, rfl⟩
  raise _ _ _ _ := ⟨⟨le_rfl, le_rfl, le_rfl, le_rfl⟩, rfl, rfl, rfl⟩
  commit _ _ _ _ _ _ :=
    ⟨⟨Nat.le_add_right _ _, Nat.le_add_right _ _, Nat.le_add_right _ _, Nat.le_add_right _ _⟩, rfl, rfl, rfl⟩

/-- Settles O16: a commit adds to the counters, and no way of a step writes a run parameter. -/
theorem countersGrowAndParametersStay : Obligations.CountersGrowAndParametersStay := fun _ _ h => counters_stepRelation.holds h

end Sys2Proof.Machine
end

section
/-! PROOFS. What the operations of 00_scope.md rule R8 and of 41_register_format.md and 42_immediate_format.md compute, as operations
on 16-bit words (rules R101 to R117): the exact result narrowed once is the word operation. -/

namespace Sys2Proof.Machine

/-! ## Sums, products, comparison -/

@[simp] theorem u16_s16 (a : Word) : u16 (s16 a) = a := BitVec.ofInt_toInt

theorem u16_natCast (n : Nat) : u16 (n : Int) = BitVec.ofNat 16 n := BitVec.ofInt_natCast 16 n

theorem addWords_eq (a b : Word) : addWords a b = a + b := by
  rw [addWords, u16_add, u16_toNat, u16_toNat]

theorem subWords_eq (a b : Word) : subWords a b = a - b := by
  rw [subWords, Int.sub_eq_add_neg, u16_add, u16_toNat, u16, BitVec.ofInt_neg, ← u16, u16_toNat, BitVec.sub_eq_add_neg]

theorem mulWords_eq (a b : Word) : mulWords a b = a * b := by
  rw [mulWords, u16, BitVec.ofInt_mul, ← u16, ← u16, u16_s16, u16_s16]

/-- The product of the patterns read as unsigned has the same low bits (rule R104). -/
theorem mul_eq_ofNat (a b : Word) : a * b = BitVec.ofNat 16 (a.toNat * b.toNat) := by
  rw [BitVec.ofNat_mul, BitVec.ofNat_toNat, BitVec.ofNat_toNat, BitVec.setWidth_eq, BitVec.setWidth_eq]

theorem sltWords_eq (a b : Word) : sltWords a b = if a.slt b then 1 else 0 := by
  simp only [sltWords, BitVec.slt_iff_toInt_lt]
  rfl

/-! ## The quotient -/

theorem quotient_natCast (m n : Nat) : quotient m n = ((m / n : Nat) : Int) := by
  rw [quotient, Int.natAbs_natCast, Int.natAbs_natCast]
  rcases m.eq_zero_or_pos with rfl | hm
  · simp
  rcases n.eq_zero_or_pos with rfl | hn
  · simp
  rw [Int.sign_eq_one_of_pos (Int.natCast_pos.2 hm), Int.sign_eq_one_of_pos (Int.natCast_pos.2 hn), Int.one_mul, Int.one_mul]

theorem quotient_neg_left (a b : Int) : quotient (-a) b = -quotient a b := by
  simp only [quotient, Int.sign_neg, Int.natAbs_neg, Int.neg_mul]

theorem quotient_neg_right (a b : Int) : quotient a (-b) = -quotient a b := by
  simp only [quotient, Int.sign_neg, Int.natAbs_neg, Int.neg_mul, Int.mul_neg]

/-- The sign and magnitude form of rule R105 is the quotient rounded toward zero. -/
theorem quotient_eq_tdiv (a b : Int) : quotient a b = a.tdiv b := by
  have hnat (m n : Nat) : quotient m n = (m : Int).tdiv n := quotient_natCast m n
  obtain ⟨m, rfl | rfl⟩ := a.eq_nat_or_neg <;> obtain ⟨n, rfl | rfl⟩ := b.eq_nat_or_neg
  · exact hnat m n
  · rw [quotient_neg_right, Int.tdiv_neg, hnat]
  · rw [quotient_neg_left, Int.neg_tdiv, hnat]
  · rw [quotient_neg_left, quotient_neg_right, Int.neg_tdiv, Int.tdiv_neg, hnat]

theorem divWords_zero (a : Word) : divWords a 0 = none := rfl

theorem divWords_of_ne (a : Word) {b : Word} (h : b ≠ 0) : divWords a b = some (BitVec.ofInt 16 (a.toInt.tdiv b.toInt)) := by
  have hb : s16 b ≠ 0 := fun h0 => h (BitVec.eq_of_toInt_eq h0)
  rw [divWords, if_neg hb, quotient_eq_tdiv]
  rfl

/-! ## Shifts: an amount of 16 or more shifts everything out -/

theorem shiftLeft_of_neg (v : Word) {n : Int} (h : n < 0) : shiftLeft v n = none := if_pos h
theorem shiftRight_of_neg (v : Word) {n : Int} (h : n < 0) : shiftRight v n = none := if_pos h
theorem shiftArith_of_neg (v : Word) {n : Int} (h : n < 0) : shiftArith v n = none := if_pos h

theorem u16_mul_pow (v : Word) (n : Nat) : u16 ((v.toNat : Int) * 2 ^ n) = v <<< n := by
  rw [show (v.toNat : Int) * 2 ^ n = ((v.toNat <<< n : Nat) : Int) by rw [Nat.shiftLeft_eq]; push_cast; rfl]
  exact u16_natCast _

theorem u16_div_pow (v : Word) (n : Nat) : u16 ((v.toNat : Int) / 2 ^ n) = v >>> n := by
  rw [show (v.toNat : Int) / 2 ^ n = ((v >>> n).toNat : Int) by
    rw [BitVec.toNat_ushiftRight, Nat.shiftRight_eq_div_pow]; push_cast; rfl]
  exact u16_toNat _

theorem shiftLeft_natCast (v : Word) (n : Nat) : shiftLeft v n = some (v <<< n) := by
  rw [shiftLeft, if_neg (Int.not_lt.2 n.cast_nonneg)]
  split
  · rw [Int.toNat_natCast, u16_mul_pow]
  · exact congrArg some (BitVec.shiftLeft_eq_zero (by omega)).symm

theorem shiftRight_natCast (v : Word) (n : Nat) : shiftRight v n = some (v >>> n) := by
  rw [shiftRight, if_neg (Int.not_lt.2 n.cast_nonneg)]
  split
  · rw [Int.toNat_natCast, u16_div_pow]
  · exact congrArg some (BitVec.ushiftRight_eq_zero (by omega)).symm

/-- Only copies of the sign are left of a word shifted by 16 or more (rule R108). -/
theorem toInt_shiftRight_of_le (v : Word) {n : Nat} (h : 16 ≤ n) : v.toInt >>> n = if 0 ≤ v.toInt then 0 else -1 := by
  have hlo := BitVec.le_toInt v
  have hhi := BitVec.toInt_lt (x := v)
  have hpow : (2 : Int) ^ 16 ≤ 2 ^ n := pow_le_pow_right₀ (by decide) h
  rw [Int.shiftRight_eq_div_pow]
  push_cast
  split
  · exact Int.ediv_eq_zero_of_lt (by assumption) (by omega)
  · exact (Int.ediv_eq_iff_of_pos (by omega)).2 (by omega)

theorem shiftArith_natCast (v : Word) (n : Nat) : shiftArith v n = some (v.sshiftRight n) := by
  rw [shiftArith, if_neg (Int.not_lt.2 n.cast_nonneg), BitVec.sshiftRight]
  by_cases hn : n ≤ 15
  · rw [if_pos (by omega), Int.toNat_natCast, Int.shiftRight_eq_div_pow]
    rfl
  · rw [if_neg (by omega), toInt_shiftRight_of_le v (by omega)]
    by_cases hv : 0 ≤ v.toInt
    · rw [if_pos hv]; exact if_pos hv
    · rw [if_neg hv]; exact if_neg hv

/-- The immediate shifted to bits 15:10 (rule R113). -/
theorem loadUpper_eq (imm : Imm6) : loadUpper imm = imm ++ 0#10 := by
  apply BitVec.eq_of_toNat_eq
  have := imm.isLt
  rw [append_toNat]
  simp only [loadUpper, zext6, luiShift, u16, BitVec.toNat_ofInt, BitVec.toNat_ofNat]
  omega

end Sys2Proof.Machine
end

section
/-! PROOFS. What each instruction does (41_register_format.md, 42_immediate_format.md, 43_load_store.md, 44_branches.md, 45_jumps.md): one
lemma per shape of instruction, and the statements from the word operations. -/

namespace Sys2Proof.Machine

/-! ## Plain results and the faults in their place -/

theorem writeResultOr_writesOnly {r : Option Word} {v : Word} (h : r = some v) (s : State) (i : Instr) (c : FaultCause)
    (rd : Reg) : ∃ t, writeResultOr s i c rd r = .next t ∧ WritesOnly s t rd v := by
  subst h
  exact writeResult_writesOnly s rd v

theorem writeResultOr_faultsAs {r : Option Word} (h : r = none) (s : State) (i : Instr) (c : FaultCause) (rd : Reg) :
    ∃ t, writeResultOr s i c rd r = .next t ∧ FaultsAs s t c (.word (encode i)) := by
  subst h
  exact ⟨_, rfl, raise_faultsAs s c _⟩

/-- Settles O25: the words are the encodings of `add` but the sentinel. -/
theorem addWritesWrappedSum : Obligations.AddWritesWrappedSum := by
  refine ⟨fun rd rs rt hw => classify_of_encode rfl hw, rfl, (classify_eq_sentinel_iff 0).2 rfl, fun rd rs rt s => ?_⟩
  rw [← addWords_eq]
  exact writeResult_writesOnly s rd _

/-- Settles O26. -/
theorem subWritesWrappedDifference : Obligations.SubWritesWrappedDifference := by
  intro rd rs rt s
  rw [← subWords_eq]
  exact writeResult_writesOnly s rd _

/-- Settles O27. -/
theorem sltWritesSignedComparison : Obligations.SltWritesSignedComparison := by
  intro rd rs rt s
  rw [← sltWords_eq]
  exact writeResult_writesOnly s rd _

/-- Settles O28: narrowed to 16 bits, the signed and the unsigned product are one word. -/
theorem mulWritesLowProduct : Obligations.MulWritesLowProduct := by
  intro rd rs rt s
  obtain ⟨t, hnext, hwrites⟩ := writeResult_writesOnly s rd (mulWords (s.reg rs) (s.reg rt))
  rw [mulWords_eq] at hwrites
  exact ⟨t, hnext, hwrites, (writesOnly_reg hwrites).trans (mul_eq_ofNat _ _)⟩

/-- Settles O29: the sign and magnitude form of the definition is the quotient rounded toward zero (`quotient_eq_tdiv`). -/
theorem divWritesTruncatedQuotient : Obligations.DivWritesTruncatedQuotient := fun rd _ _ s hne =>
  writeResultOr_writesOnly (divWords_of_ne _ hne) s _ _ rd

/-- Settles O30. -/
theorem divByZeroFaults : Obligations.DivByZeroFaults := fun rd rs rt s hzero =>
  writeResultOr_faultsAs (hzero ▸ divWords_zero (s.reg rs)) s (.div rd rs rt) .divideByZero rd

/-- Settles O31: an amount that is not negative is the same number read as unsigned. -/
theorem registerShiftsWriteShiftedWord : Obligations.RegisterShiftsWriteShiftedWord := by
  intro rd rs rt s h
  have hamount : s16 (s.reg rt) = ((s.reg rt).toNat : Int) := by
    rw [s16, BitVec.toInt_eq_toNat_of_lt (BitVec.toInt_pos_iff.1 h)]
  exact ⟨writeResultOr_writesOnly (hamount ▸ shiftLeft_natCast _ _) s _ _ rd,
    writeResultOr_writesOnly (hamount ▸ shiftRight_natCast _ _) s _ _ rd⟩

/-- Settles O32. -/
theorem negativeRegisterShiftFaults : Obligations.NegativeRegisterShiftFaults := fun rd rs rt s h =>
  ⟨writeResultOr_faultsAs (shiftLeft_of_neg _ h) s (.sllr rd rs rt) _ rd,
    writeResultOr_faultsAs (shiftRight_of_neg _ h) s (.srlr rd rs rt) _ rd⟩

/-- Settles O33. -/
theorem addiWritesWrappedSum : Obligations.AddiWritesWrappedSum := by
  intro rd rs imm s
  rw [exec_addi]
  exact writeResult_writesOnly s rd _

/-- Settles O34. -/
theorem liWritesSignExtendedImmediate : Obligations.LiWritesSignExtendedImmediate := fun rd _ _ s => writeResult_writesOnly s rd _

/-- Settles O35. -/
theorem luiWritesTopBits : Obligations.LuiWritesTopBits := by
  intro rd unused imm s
  rw [← loadUpper_eq]
  exact writeResult_writesOnly s rd _

/-- Settles O36: a field of 0 to 31 is its own sign extension. -/
theorem immediateShiftsWriteShiftedWord : Obligations.ImmediateShiftsWriteShiftedWord := by
  intro rd rs imm s h
  have hamount : sext6 imm = (imm.toNat : Int) := BitVec.toInt_eq_toNat_of_lt (by omega)
  exact ⟨writeResultOr_writesOnly (hamount ▸ shiftLeft_natCast _ _) s _ _ rd,
    writeResultOr_writesOnly (hamount ▸ shiftRight_natCast _ _) s _ _ rd,
    writeResultOr_writesOnly (hamount ▸ shiftArith_natCast _ _) s _ _ rd⟩

/-- Settles O37: a field of 32 to 63 has its sign bit set. -/
theorem negativeImmediateShiftFaults : Obligations.NegativeImmediateShiftFaults := by
  intro rd rs imm s h
  have hneg : sext6 imm < 0 := BitVec.toInt_neg_iff.2 (by omega)
  exact ⟨writeResultOr_faultsAs (shiftLeft_of_neg _ hneg) s (.sll rd rs imm) _ rd,
    writeResultOr_faultsAs (shiftRight_of_neg _ hneg) s (.srl rd rs imm) _ rd,
    writeResultOr_faultsAs (shiftArith_of_neg _ hneg) s (.sra rd rs imm) _ rd⟩

/-! ## Load and store -/

theorem inside_or_outside (a : Int) : (0 ≤ a ∧ a ≤ 511) ∨ (a < 0 ∨ 511 < a) := by omega

theorem memRead_of_inside (m : Memory) {a : Int} (h0 : 0 ≤ a) (h1 : a ≤ 511) : memRead m a = some (m.read a.toNat) := by
  rcases memRead_cases m a with ⟨-, -, h⟩ | ⟨h, -⟩
  · exact h
  · omega

theorem memRead_of_outside (m : Memory) {a : Int} (h : a < 0 ∨ 511 < a) : memRead m a = none := by
  rcases memRead_cases m a with ⟨h0, h1, -⟩ | ⟨-, h⟩
  · omega
  · exact h

theorem memWrite_of_inside (m : Memory) {a : Int} (h0 : 0 ≤ a) (h1 : a ≤ 511) (v : Word) :
    memWrite m a v = some (m.write a.toNat v) := by
  rcases memWrite_cases m a v with ⟨-, -, h⟩ | ⟨h, -⟩
  · exact h
  · omega

theorem memWrite_of_outside (m : Memory) {a : Int} (h : a < 0 ∨ 511 < a) (v : Word) : memWrite m a v = none := by
  rcases memWrite_cases m a v with ⟨h0, h1, -⟩ | ⟨-, h⟩
  · omega
  · exact h

theorem exec_lw_of_inside (rd rs : Reg) (imm : Imm6) (s : State) (h0 : 0 ≤ effectiveAddress (s.reg rs) imm)
    (h1 : effectiveAddress (s.reg rs) imm ≤ 511) :
    exec (.lw rd rs imm) s = writeResult s rd (s.mem.read (effectiveAddress (s.reg rs) imm).toNat) := by
  simp only [exec, execLw, memRead_of_inside s.mem h0 h1]

theorem exec_lw_of_outside (rd rs : Reg) (imm : Imm6) (s : State)
    (h : effectiveAddress (s.reg rs) imm < 0 ∨ 511 < effectiveAddress (s.reg rs) imm) :
    exec (.lw rd rs imm) s = .next (s.raise .memAddressOutOfRange (.address (effectiveAddress (s.reg rs) imm))) := by
  simp only [exec, execLw, memRead_of_outside s.mem h, faultWith]

/-- The state after a store of a register's value at an address inside memory (rule R122). -/
def State.stored (s : State) (a : Nat) (v : Word) : State :=
  s.commit { mem := some (s.mem.write a v), newPc := s.npc, cost := cycPlain }

theorem exec_sw_of_inside (rd rs : Reg) (imm : Imm6) (s : State) (h0 : 0 ≤ effectiveAddress (s.reg rs) imm)
    (h1 : effectiveAddress (s.reg rs) imm ≤ 511) :
    exec (.sw rd rs imm) s = .next (s.stored (effectiveAddress (s.reg rs) imm).toNat (s.reg rd)) := by
  simp only [exec, execSw, memWrite_of_inside s.mem h0 h1, complete, State.stored]

theorem exec_sw_of_outside (rd rs : Reg) (imm : Imm6) (s : State)
    (h : effectiveAddress (s.reg rs) imm < 0 ∨ 511 < effectiveAddress (s.reg rs) imm) :
    exec (.sw rd rs imm) s = .next (s.raise .memAddressOutOfRange (.address (effectiveAddress (s.reg rs) imm))) := by
  simp only [exec, execSw, memWrite_of_outside s.mem h, faultWith]

@[simp] theorem State.stored_mem (s : State) (a : Nat) (v : Word) : (s.stored a v).mem = s.mem.write a v := rfl

theorem stored_storesOnly (s : State) (a : Nat) (v : Word) : StoresOnly s (s.stored a v) a v := by
  refine ⟨?value, ?otherCells, ?registers, rfl, rfl, ?counted, ?run⟩
  case value => rw [State.stored_mem, Memory.read_write, if_pos rfl]
  case otherCells => intro b hb; rw [State.stored_mem, Memory.read_write, if_neg hb]
  case registers => exact fun _ => rfl
  case counted => exact ⟨rfl, State.commit_cycles s _, rfl, rfl⟩
  case run => exact ⟨rfl, rfl, rfl, rfl, rfl⟩

/-- Settles O38. -/
theorem lwLoadsCell : Obligations.LwLoadsCell := by
  intro rd rs imm s h0 h1
  rw [exec_lw_of_inside rd rs imm s h0 h1]
  exact writeResult_writesOnly s rd _

/-- Settles O39. -/
theorem swStoresCell : Obligations.SwStoresCell := fun rd rs imm s h0 h1 =>
  ⟨rfl, _, exec_sw_of_inside rd rs imm s h0 h1, stored_storesOnly s _ _⟩

/-- Settles O40. -/
theorem outOfRangeAccessFaults : Obligations.OutOfRangeAccessFaults := fun rd rs imm s h =>
  ⟨⟨_, exec_lw_of_outside rd rs imm s h, raise_faultsAs s _ _⟩, _, exec_sw_of_outside rd rs imm s h, raise_faultsAs s _ _⟩

/-- Settles O9: the sentinel is a matter of the fetched word only; `lw` and `sw` treat 0 as any other word. -/
theorem zeroWordHaltsOnFetchOnly : Obligations.ZeroWordHaltsOnFetchOnly := by
  refine ⟨fun s hs h0 h1 hzero => ?fetched, fun s rd rs imm h0 h1 hzero => ?loaded, fun s rd rs imm h0 h1 hzero => ?stored⟩
  case fetched => exact ⟨_, haltChangesOnlyTheRunState s hs h0 h1 hzero, rfl⟩
  case loaded =>
    rw [exec_lw_of_inside rd rs imm s h0 h1, hzero]
    exact writeResult_writesOnly s rd 0
  case stored =>
    rw [exec_sw_of_inside rd rs imm s h0 h1, hzero]
    exact ⟨_, rfl, stored_storesOnly s _ 0⟩

/-- Settles O45: the primitives answer by `Memory.read` and `Memory.write` inside the array, and not at all outside. -/
theorem memoryReadsLastWrite : Obligations.MemoryReadsLastWrite := by
  refine fun m a v => ⟨fun h0 h1 => ?_, fun h => ⟨memRead_of_outside m h, memWrite_of_outside m h v⟩⟩
  refine ⟨memRead_of_inside m h0 h1, _, memWrite_of_inside m h0 h1 v, ?same, fun b hb => ?other⟩
  case same => rw [memRead_of_inside _ h0 h1, Memory.read_write, if_pos rfl]
  case other =>
    rcases memRead_cases m b with ⟨hb0, hb1, hread⟩ | ⟨hout, hread⟩
    · rw [hread, memRead_of_inside _ hb0 (by omega), Memory.read_write, if_neg (by omega)]
    · rw [hread, memRead_of_outside _ (by omega)]

/-- Settles O46: a store that did not fault was inside memory, so the fetch there reads the stored word. -/
theorem storeIsSeenByFetch : Obligations.StoreIsSeenByFetch := by
  intro rd rs imm s t u hsw hnotFaulted hmem hpc hu
  rcases inside_or_outside (effectiveAddress (s.reg rs) imm) with ⟨h0, h1⟩ | hout
  · rw [exec_sw_of_inside rd rs imm s h0 h1] at hsw
    injection hsw with ht
    have hfetched : u.mem.read u.pc.toNat = s.reg rd := by
      rw [hmem, hpc, ← ht, State.stored_mem, Memory.read_write, if_pos rfl]
    have hstep : step u = runWord (s.reg rd) u := hfetched ▸ step_of_fetched hu (hpc ▸ h0) (hpc ▸ h1)
    rw [hstep]
    exact ⟨fun hzero => hzero ▸ runWord_zero u, fun i hi => runWord_of_instr hi u⟩
  · rw [exec_sw_of_outside rd rs imm s hout] at hsw
    injection hsw with ht
    exact absurd (congrArg State.runState ht).symm hnotFaulted

/-! ## Branches and jumps -/

/-- A misprediction adds one to stalls and to flushes (rule R128). -/
theorem mispredicted_count (guess taken : Bool) : (if (guess != taken) = true then 1 else 0) = if guess = taken then 0 else 1 := by
  revert guess taken; decide

/-- The prediction path of both branches (rules R125, R128). -/
theorem branch_branches (op : BranchOp) (rd rs : Reg) (imm : Imm6) (taken : Bool) (s : State) :
    ∃ t, branch op rd rs imm taken s = .next t ∧ Branches s t { op := op, a := rd, b := rs } imm.toInt taken := by
  refine ⟨_, rfl, rfl, ?registers, ?memory, rfl, ⟨rfl, ?cycles, ?stalls, ?flushes⟩, ?run⟩
  case registers => exact fun _ => rfl
  case memory => exact fun _ => rfl
  case cycles => exact State.commit_cycles s _
  case stalls => rw [State.commit_stalls, mispredicted_count]
  case flushes => rw [State.commit_flushes, mispredicted_count]
  case run => exact ⟨rfl, rfl, rfl, rfl, rfl⟩

theorem condEqual_eq (a b : Word) : condEqual a b = decide (a = b) := rfl

theorem condNotEqual_eq (a b : Word) : condNotEqual a b = decide (a ≠ b) := (decide_not (p := a = b)).symm

theorem iWord_ne_zero {o : BitVec 4} (ho : o ≠ 0) (d s : Reg) (imm : Imm6) : iWord o d s imm ≠ 0 := fun h =>
  ho ((decodeFields_iWord o d s imm).1.symm.trans (congrArg (fun w => (decodeFields w).opcode) h))

theorem jWord_ne_zero {o : BitVec 4} (ho : o ≠ 0) (imm : Imm12) : jWord o imm ≠ 0 := fun h =>
  ho ((decodeFields_jWord o imm).1.symm.trans (congrArg (fun w => (decodeFields w).opcode) h))

/-- Settles O41: the condition of `beq` is equality of the patterns, and the word is its encoding, whose opcode is not 0. -/
theorem beqBranchesOnEqual : Obligations.BeqBranchesOnEqual := by
  refine ⟨fun rd rs imm => ?word, fun rd rs imm s => ?taken⟩
  case word => exact classify_of_encode rfl (iWord_ne_zero (by decide) rd rs imm)
  case taken =>
    rw [← condEqual_eq]
    exact branch_branches .beq rd rs imm _ s

/-- Settles O42. -/
theorem bneBranchesOnDifferent : Obligations.BneBranchesOnDifferent := by
  intro rd rs imm s
  rw [← condNotEqual_eq]
  exact branch_branches .bne rd rs imm _ s

/-- A jump moves `pc` by its displacement and costs one cycle; beside the link it writes nothing (rules R130, R131). -/
theorem jump_frame (s : State) (imm : Imm12) (link : Option (Reg × Word)) :
    let t := s.commit { reg := link, newPc := jumpTarget s imm, cost := cycPlain }
    t.pc = s.pc + 1 + imm.toInt ∧ SameMemory s t ∧ t.bpt = s.bpt ∧ Counted s t 1 0 0 ∧ SameRun s t :=
  ⟨rfl, fun _ => rfl, rfl, ⟨rfl, State.commit_cycles s _, rfl, rfl⟩, rfl, rfl, rfl, rfl, rfl⟩

/-- Settles O43. -/
theorem jmpAddsDisplacement : Obligations.JmpAddsDisplacement := by
  refine ⟨fun imm => ?word, fun imm s => ?_⟩
  case word => exact classify_of_encode rfl (jWord_ne_zero (by decide) imm)
  obtain ⟨hpc, hmem, hbpt, hcounted, hrun⟩ := jump_frame s imm none
  exact ⟨_, rfl, hpc, fun _ => rfl, hmem, hbpt, hcounted, hrun, fun ht hout =>
    ⟨_, _, step_of_fetchFault ht hout, rfl, rfl⟩⟩

/-- Settles O44. -/
theorem jalLinksTheTarget : Obligations.JalLinksTheTarget := by
  intro imm s
  obtain ⟨hpc, hmem, hbpt, hcounted, hrun⟩ := jump_frame s imm (some (linkReg, u16 (jumpTarget s imm)))
  refine ⟨_, rfl, hpc, ?link, fun r hr => ?other, hmem, hbpt, hcounted, hrun⟩
  case link => rw [State.commit_reg]; exact if_pos rfl
  case other => rw [State.commit_reg]; exact if_neg hr

end Sys2Proof.Machine
end

section
/-! PROOFS. What an instruction may raise and what it may count: the ends of a step (rule R80), the information of a fault (rules R171 to
R176), the use of the predictor (rule R128), and that no instruction reads a counter (rule R20). -/

namespace Sys2Proof.Machine

/-! ## What an instruction answers, with the instruction named -/

/-- A plain instruction completes and leaves the predictor alone, a branch completes, a load or store raises its address when it is
outside memory, and a division or shift raises the word of the instruction. -/
inductive ExecAnswer (i : Instr) (s : State) : State → Prop where
  | plain (e : Effect) (hbpt : e.bpt = none) (hpredicted : e.mispredicted = false) : ExecAnswer i s (s.commit e)
  | branch (e : Effect) (h : i.mnemonic = .beq ∨ i.mnemonic = .bne) : ExecAnswer i s (s.commit e)
  | badAddress (a : Int) (h : a < 0 ∨ 511 < a) : ExecAnswer i s (s.raise .memAddressOutOfRange (.address a))
  | badOperand (c : FaultCause) (h : c = .divideByZero ∨ c = .negativeShiftAmount) :
      ExecAnswer i s (s.raise c (.word (encode i)))

theorem writeResult_answer (i : Instr) (s : State) (rd : Reg) (v : Word) :
    ∃ t, writeResult s rd v = .next t ∧ ExecAnswer i s t := ⟨_, rfl, .plain _ rfl rfl⟩

theorem writeResultOr_answer (i : Instr) (s : State) {c : FaultCause} (h : c = .divideByZero ∨ c = .negativeShiftAmount)
    (rd : Reg) (r : Option Word) : ∃ t, writeResultOr s i c rd r = .next t ∧ ExecAnswer i s t := by
  cases r with
  | none => exact ⟨_, rfl, .badOperand c h⟩
  | some v => exact writeResult_answer i s rd v

theorem exec_answer (i : Instr) (s : State) : ∃ t, exec i s = .next t ∧ ExecAnswer i s t := by
  cases i with
  | add rd rs rt | sub rd rs rt | slt rd rs rt | mul rd rs rt => exact writeResult_answer _ s rd _
  | addi rd rs imm | li rd rs imm | lui rd rs imm => exact writeResult_answer _ s rd _
  | div rd rs rt => exact writeResultOr_answer _ s (.inl rfl) rd _
  | sllr rd rs rt | srlr rd rs rt => exact writeResultOr_answer _ s (.inr rfl) rd _
  | sll rd rs imm | srl rd rs imm | sra rd rs imm => exact writeResultOr_answer _ s (.inr rfl) rd _
  | lw rd rs imm =>
    rcases inside_or_outside (effectiveAddress (s.reg rs) imm) with ⟨h0, h1⟩ | h
    · rw [exec_lw_of_inside rd rs imm s h0 h1]
      exact writeResult_answer _ s rd _
    · exact ⟨_, exec_lw_of_outside rd rs imm s h, .badAddress _ h⟩
  | sw rd rs imm =>
    rcases inside_or_outside (effectiveAddress (s.reg rs) imm) with ⟨h0, h1⟩ | h
    · exact ⟨_, exec_sw_of_inside rd rs imm s h0 h1, .plain _ rfl rfl⟩
    · exact ⟨_, exec_sw_of_outside rd rs imm s h, .badAddress _ h⟩
  | beq rd rs imm => exact ⟨_, rfl, .branch _ (.inl rfl)⟩
  | bne rd rs imm => exact ⟨_, rfl, .branch _ (.inr rfl)⟩
  | jmp imm | jal imm => exact ⟨_, rfl, .plain _ rfl rfl⟩

theorem execAnswer_of_exec {i : Instr} {s t : State} (h : exec i s = .next t) : ExecAnswer i s t := by
  obtain ⟨u, hu, hanswer⟩ := exec_answer i s
  obtain rfl : u = t := by injection hu.symm.trans h
  exact hanswer

/-- Settles O53: only a branch completes with a new table or a misprediction (`ExecAnswer`), and a fault changes neither. -/
theorem onlyBranchesUseThePredictor : Obligations.OnlyBranchesUseThePredictor := by
  intro i s t h hbeq hbne
  cases execAnswer_of_exec h with
  | plain e hbpt hpredicted =>
    simp only [State.commit_bpt, State.commit_stalls, State.commit_flushes, hbpt, hpredicted]
    exact ⟨rfl, rfl, rfl⟩
  | branch e hbranch => exact absurd hbranch (not_or.2 ⟨hbeq, hbne⟩)
  | badAddress | badOperand => exact ⟨rfl, rfl, rfl⟩

/-! ## The ends of a step -/

/-- Settles O12: each way of `step_cases` is one of the four transitions; an instruction that completes keeps Running. -/
theorem runStateTransitions : Obligations.RunStateTransitions := by
  refine ⟨rfl, fun s t h => ?_⟩
  rcases step_cases h with ⟨hr, rfl⟩ | ⟨hr, hb, rfl⟩ |
    ⟨hr, -, ⟨-, rfl⟩ | ⟨h0, h1, ⟨hzero, rfl⟩ | ⟨why, -, rfl⟩ | ⟨i, hi, hexec⟩⟩⟩
  · exact ⟨fun _ => rfl, fun hrunning => absurd hrunning hr⟩
  all_goals refine ⟨fun hn => absurd hr hn, fun _ => ?_⟩
  · exact .inr (.inr (.inl ⟨rfl, hb⟩))
  · exact .inr (.inr (.inr ⟨rfl, _, _, rfl⟩))
  · exact .inr (.inl ⟨rfl, h0, h1, (classify_eq_sentinel_iff _).1 hzero⟩)
  · exact .inr (.inr (.inr ⟨rfl, _, _, rfl⟩))
  · cases execAnswer_of_exec hexec with
    | plain | branch => exact .inl ⟨hr, i, hi, hexec⟩
    | badAddress | badOperand => exact .inr (.inr (.inr ⟨rfl, _, _, rfl⟩))

/-- Settles O15: the ways of `step_cases` that end in Faulted are raised faults, each with the information of its cause; the word of an
instruction is the word it was fetched as (`encode_of_classify`). -/
theorem faultsArePrecise : Obligations.FaultsArePrecise := by
  intro s t h hr hfaulted
  rcases step_cases h with ⟨hn, -⟩ | ⟨-, -, rfl⟩ |
    ⟨-, -, ⟨hpc, rfl⟩ | ⟨-, -, ⟨-, rfl⟩ | ⟨why, -, rfl⟩ | ⟨i, hi, hexec⟩⟩⟩
  · exact absurd hr hn
  · exact nomatch hfaulted
  · exact ⟨_, _, raise_faultsAs s _ _, .inl ⟨rfl, rfl, hpc⟩⟩
  · exact nomatch hfaulted
  · exact ⟨_, _, raise_faultsAs s _ _, .inr (.inr ⟨.inl rfl, rfl⟩)⟩
  · cases execAnswer_of_exec hexec with
    | plain | branch => exact nomatch hr.symm.trans hfaulted
    | badAddress a ha => exact ⟨_, _, raise_faultsAs s _ _, .inr (.inl ⟨rfl, a, rfl, ha⟩)⟩
    | badOperand c hc =>
      exact ⟨_, _, raise_faultsAs s _ _, .inr (.inr ⟨.inr hc, congrArg FaultInfo.word (encode_of_classify hi)⟩)⟩

/-! ## Counters are not read -/

/-- Amounts added to the four counters and to the static count. -/
structure Counts where
  cycles : Nat
  executed : Nat
  stalls : Nat
  flushes : Nat
  staticCount : Nat

/-- The state with other counter values. -/
def State.counting (s : State) (n : Counts) : State :=
  { s with cycles := s.cycles + n.cycles, executed := s.executed + n.executed, stalls := s.stalls + n.stalls,
           flushes := s.flushes + n.flushes, staticCount := s.staticCount + n.staticCount }

/-- The next state of an outcome, with other counter values. -/
def outcomeCounting (o : Host.Outcome State Fault Refusal) (n : Counts) : Host.Outcome State Fault Refusal :=
  match o with
  | .next t => .next (t.counting n)
  | .fault r => .fault r
  | .refused r => .refused r

/-- A commit adds to the counters and sets everything else without them. -/
theorem commit_counting (s : State) (e : Effect) (n : Counts) : (s.counting n).commit e = (s.commit e).counting n := by
  simp only [State.commit, State.counting, Nat.add_right_comm]

theorem complete_counting (s : State) (e : Effect) (n : Counts) :
    complete (s.counting n) e = outcomeCounting (complete s e) n := congrArg Host.Outcome.next (commit_counting s e n)

theorem writeResult_counting (s : State) (rd : Reg) (v : Word) (n : Counts) :
    writeResult (s.counting n) rd v = outcomeCounting (writeResult s rd v) n := complete_counting s _ n

theorem writeResultOr_counting (s : State) (i : Instr) (c : FaultCause) (rd : Reg) (r : Option Word) (n : Counts) :
    writeResultOr (s.counting n) i c rd r = outcomeCounting (writeResultOr s i c rd r) n := by
  cases r with
  | none => rfl
  | some v => exact writeResult_counting s rd v n

theorem exec_counting (i : Instr) (s : State) (n : Counts) : exec i (s.counting n) = outcomeCounting (exec i s) n := by
  cases i with
  | add rd rs rt | sub rd rs rt | slt rd rs rt | mul rd rs rt => exact writeResult_counting s rd _ n
  | addi rd rs imm | li rd rs imm | lui rd rs imm => exact writeResult_counting s rd _ n
  | div rd rs rt | sllr rd rs rt | srlr rd rs rt => exact writeResultOr_counting s _ _ rd _ n
  | sll rd rs imm | srl rd rs imm | sra rd rs imm => exact writeResultOr_counting s _ _ rd _ n
  | lw rd rs imm =>
    rcases inside_or_outside (effectiveAddress (s.reg rs) imm) with ⟨h0, h1⟩ | h
    · rw [exec_lw_of_inside rd rs imm s h0 h1, exec_lw_of_inside rd rs imm (s.counting n) h0 h1]
      exact writeResult_counting s rd _ n
    · rw [exec_lw_of_outside rd rs imm s h, exec_lw_of_outside rd rs imm (s.counting n) h]
      rfl
  | sw rd rs imm =>
    rcases inside_or_outside (effectiveAddress (s.reg rs) imm) with ⟨h0, h1⟩ | h
    · rw [exec_sw_of_inside rd rs imm s h0 h1, exec_sw_of_inside rd rs imm (s.counting n) h0 h1]
      exact complete_counting s _ n
    · rw [exec_sw_of_outside rd rs imm s h, exec_sw_of_outside rd rs imm (s.counting n) h]
      rfl
  | beq rd rs imm | bne rd rs imm => exact complete_counting s _ n
  | jmp imm | jal imm => exact complete_counting s _ n

/-- Settles O17: an instruction on a state with other counters is the instruction, and then the other counters (`exec_counting`). -/
theorem instructionsIgnoreCounters : Obligations.InstructionsIgnoreCounters := fun i s _ c e st fl n h =>
  (exec_counting i s ⟨c, e, st, fl, n⟩).trans (congrArg (outcomeCounting · ⟨c, e, st, fl, n⟩) h)

end Sys2Proof.Machine
end

section
/-! PROOFS. The Branch Predictor's fixed strategies, counters and keys (46_branch_predictor.md rules R142, R145, R146, R148 to R152), and
whole runs: their start, their end (rule R92), the loader (rules R38, R191) and the metrics (rule R161). -/

namespace Sys2Proof.Machine

/-! ## The Branch Predictor -/

/-- Settles O48: a static strategy has no initial state, so it neither creates nor advances an entry. -/
theorem staticStrategiesAreFixed : Obligations.StaticStrategiesAreFixed := fun t k taken =>
  ⟨congrArg (Prod.mk true) (ensureEntry_static rfl t k), update_static rfl t k taken,
    congrArg (Prod.mk false) (ensureEntry_static rfl t k), update_static rfl t k taken⟩

/-- A strategy that is a saturating counter with the given top, first level and lowest level predicted taken. -/
structure IsCounter (st : Strategy) (top half : Nat) : Prop where
  top_lt : top < 8
  advance : st.advance = saturate top
  initial : ∃ v, st.initial = some v ∧ v.toNat = half
  predicts : ∀ v, st.predicts v = decide (half ≤ v.toNat)

theorem isCounter_of_strategy {st : Strategy} {top half : Nat}
    (h : (st = .twoBit ∧ top = 3 ∧ half = 2) ∨ (st = .eightState ∧ top = 7 ∧ half = 4)) : IsCounter st top half := by
  rcases h with ⟨rfl, rfl, rfl⟩ | ⟨rfl, rfl, rfl⟩
  · exact ⟨by decide, advance_eq_saturate (.inl ⟨rfl, rfl⟩), ⟨2, rfl, rfl⟩, fun _ => rfl⟩
  · exact ⟨by decide, advance_eq_saturate (.inr ⟨rfl, rfl⟩), ⟨4, rfl, rfl⟩, fun _ => rfl⟩

theorem saturate_toNat {top : Nat} (htop : top < 8) (v : BitVec 3) (taken : Bool) :
    (saturate top v taken).toNat = if taken then min top (v.toNat + 1) else v.toNat - 1 := by
  cases taken
  · exact saturate_notTaken top v
  · exact saturate_taken htop v

/-- Settles O50: both strategies are saturating counters, and an update moves the state of its own key only. -/
theorem saturatingCountersMoveOneStep : Obligations.SaturatingCountersMoveOneStep := by
  intro st top half hst t k taken
  obtain ⟨htop, hadvance, ⟨v, hinitial, hv⟩, hpredicts⟩ := isCounter_of_strategy hst
  refine ⟨fun hunseen => ?unseen, ?predicts, ?moves, fun q hq => entryOf_update_of_ne st t hq taken⟩
  case unseen => rw [entryOf, hunseen, hinitial]; exact hv
  case predicts => exact (congrArg (· = true) (hpredicts _)).to_iff.trans decide_eq_true_iff
  case moves =>
    rw [entryOf_update (by rw [hinitial]; rfl), if_pos rfl, hadvance]
    exact saturate_toNat htop _ taken

/-- Settles O54. -/
theorem branchKeysHaveOwnPlaces : Obligations.BranchKeysHaveOwnPlaces := fun k _ => ⟨k.index_lt, BranchKey.index_injective⟩

/-! ## Runs -/

theorem reachesIn_one {s t : State} (h : step s = .next t) : ReachesIn 1 s t :=
  (reachesIn_succ h 0 t).2 ((reachesIn_zero t t).2 rfl)

/-- What every step keeps, a run keeps. -/
theorem reachesIn_keeps {P : State → Prop} (hP : ∀ s t, P s → step s = .next t → P t) {n : Nat} {s t : State}
    (h : ReachesIn n s t) (hs : P s) : P t := by
  induction n generalizing s with
  | zero => exact (reachesIn_zero s t).1 h ▸ hs
  | succ n ih =>
    obtain ⟨u, hu⟩ := stepAlwaysAnswersNext s
    exact ih ((reachesIn_succ hu n t).1 h) (hP s u hs hu)

/-- Settles O19: an empty memory, an empty table and counters at 0. -/
theorem resetMeetsInvariants : Obligations.ResetMeetsInvariants :=
  ⟨rfl, rfl, ⟨by decide, by decide⟩, ⟨nofun, nofun⟩, ⟨rfl, le_rfl, le_rfl, le_rfl⟩, Nat.zero_le _⟩

/-- Settles O56: an unloaded cell reads 0, so the first step halts. -/
theorem emptyProgramHaltsAtOnce : Obligations.EmptyProgramHaltsAtOnce := fun p =>
  ⟨_, haltChangesOnlyTheRunState (State.reset.withParameters p) ⟨rfl, Nat.zero_le _⟩ le_rfl
    (by decide : (0 : Int) ≤ 511) rfl,
    rfl, rfl, rfl, rfl, rfl, rfl⟩

/-- A step from Running ends the run, or it spends cycles of the same budget. -/
theorem progress_stepRelation :
    StepRelation fun s t => s.runState = .running → Ended t ∨ (t.budget = s.budget ∧ s.cycles < t.cycles) where
  stay _ hn hr := absurd hr hn
  timeOut _ _ _ := .inl nofun
  halt _ _ _ := .inl nofun
  raise _ _ _ _ _ := .inl nofun
  commit s e _ _ _ he _ := by
    refine .inr ⟨rfl, ?_⟩
    rw [State.commit_cycles]
    exact Nat.lt_add_of_pos_right he.cost.1

theorem ends_within (n : Nat) {s : State} (h : s.budget < s.cycles + n) :
    ∃ m t, m ≤ n + 1 ∧ ReachesIn m s t ∧ Ended t := by
  induction n generalizing s with
  | zero =>
    by_cases hr : s.runState = .running
    · exact ⟨1, _, le_rfl, reachesIn_one (step_of_overBudget hr h), nofun⟩
    · exact ⟨0, s, Nat.zero_le _, (reachesIn_zero s s).2 rfl, hr⟩
  | succ n ih =>
    by_cases hr : s.runState = .running
    · obtain ⟨u, hu⟩ := stepAlwaysAnswersNext s
      rcases progress_stepRelation.holds hu hr with hend | ⟨hbudget, hcycles⟩
      · exact ⟨1, u, by omega, reachesIn_one hu, hend⟩
      · obtain ⟨m, t, hm, hrun, hend⟩ := ih (s := u) (by omega)
        exact ⟨m + 1, t, by omega, (reachesIn_succ hu m t).2 hrun, hend⟩
    · exact ⟨0, s, Nat.zero_le _, (reachesIn_zero s s).2 rfl, hr⟩

/-- Settles O55: each step of a run that goes on spends a cycle, and past the budget the next step ends it. -/
theorem everyRunEnds : Obligations.EveryRunEnds := fun s => by
  obtain ⟨m, t, hm, hrun, hend⟩ := ends_within (s.budget + 1) (s := s) (by omega)
  exact ⟨m, t, hm, hrun, hend⟩

/-! ## The loader -/

theorem read_loadCells (m : Memory) (b : Nat) (ws : List Word) (a : Nat) :
    (loadCells m b ws).read a = if b ≤ a ∧ a < b + ws.length then ws.getD (a - b) 0 else m.read a := by
  induction ws generalizing m b with
  | nil => rw [if_neg (by simp)]; rfl
  | cons w ws ih =>
    rw [loadCells, ih, Memory.read_write, List.length_cons]
    by_cases hb : a = b
    · subst hb
      rw [if_neg (by omega), if_pos rfl, if_pos (by omega), Nat.sub_self]
      rfl
    · rw [if_neg hb]
      by_cases ha : b + 1 ≤ a ∧ a < b + 1 + ws.length
      · rw [if_pos ha, if_pos (by omega), show a - b = a - (b + 1) + 1 by omega]
        rfl
      · rw [if_neg ha, if_neg (by omega)]

/-- The memory the loader makes of two images that fit (rule R38). -/
def loadedMemory (image : List Word) (data : List Int) : Memory := loadCells (loadCells [] 0 image) 256 (data.map u16)

/-- The first 256 cells are the program's, the next 256 the data's; a list read past its end answers 0. -/
theorem read_loadedMemory (image : List Word) (data : List Int) (hi : image.length ≤ 256) (hd : data.length ≤ 256) (a : Nat) :
    (loadedMemory image data).read a =
      if a < 256 then image.getD a 0 else if a < 512 then (data.map u16).getD (a - 256) 0 else 0 := by
  rw [loadedMemory, read_loadCells, read_loadCells, List.length_map, Memory.read_nil, Nat.sub_zero]
  by_cases h256 : a < 256
  · rw [if_neg (by omega), if_pos h256]
    split
    · rfl
    · exact (List.getD_eq_default _ _ (by omega)).symm
  · have himage : ¬(0 ≤ a ∧ a < 0 + image.length) := by omega
    rw [if_neg h256, if_neg himage]
    by_cases hdata : 256 ≤ a ∧ a < 256 + data.length
    · rw [if_pos hdata, if_pos (by omega)]
    · rw [if_neg hdata]
      split
      · exact (List.getD_eq_default _ _ (by rw [List.length_map]; omega)).symm
      · rfl

/-- The loader starts exactly the images that fit (rules R38, R191). -/
theorem startImage_eq_ok_iff (image : List Word) (data : List Int) (p : RunParameters) (s : State) :
    startImage image data p = .ok s ↔ image.length ≤ 256 ∧ data.length ≤ 256 ∧
      s = { State.reset with mem := loadedMemory image data }.withParameters p := by
  by_cases hi : image.length ≤ Config.codeWords
  · by_cases hd : data.length ≤ Config.dataWords
    · simp only [startImage, loadProgram, loadData, if_pos hi, if_pos hd, Except.ok.injEq]
      exact ⟨fun h => ⟨hi, hd, h.symm⟩, fun h => h.2.2.symm⟩
    · simp only [startImage, loadProgram, loadData, if_pos hi, if_neg hd, reduceCtorEq, false_iff]
      exact fun h => hd h.2.1
  · simp only [startImage, loadProgram, if_neg hi, reduceCtorEq, false_iff]
    exact fun h => hi h.1

/-- Settles O57: an answer of the loader is the reset state with the loaded memory, and images that do not fit have none. -/
theorem loaderPlacesImages : Obligations.LoaderPlacesImages := by
  refine fun image data p => ⟨fun hi hd => ?fit, fun h => ?misfit⟩
  case fit =>
    have hmem := read_loadedMemory image data hi hd
    refine ⟨_, (startImage_eq_ok_iff image data p _).2 ⟨hi, hd, rfl⟩, fun a ha => ⟨?program, ?data⟩, fun a ha => ?outside, rfl⟩
    case program => exact (hmem a).trans (if_pos ha)
    case data =>
      refine (hmem (256 + a)).trans ?_
      rw [if_neg (by omega), if_pos (by omega), Nat.add_sub_cancel_left]
      rfl
    case outside =>
      refine (hmem a).trans ?_
      rw [if_neg (by omega), if_neg (by omega)]
  case misfit =>
    cases hs : startImage image data p with
    | error e => exact ⟨e, rfl⟩
    | ok s =>
      obtain ⟨hi, hd, -⟩ := (startImage_eq_ok_iff image data p s).1 hs
      omega

/-! ## The metrics -/

theorem accuracy_nonneg {executed stalls : Nat} (h : stalls ≤ executed) : 0 ≤ accuracy executed stalls := by
  unfold accuracy
  split
  · exact le_rfl
  · have : (stalls : Rat) ≤ executed := Nat.cast_le.2 h
    exact mul_nonneg (div_nonneg (sub_nonneg.2 this) (Nat.cast_nonneg _)) (by norm_num)

theorem countersConsistent_of_startImage {image : List Word} {data : List Int} {p : RunParameters} {s : State}
    (h : startImage image data p = .ok s) : CountersConsistent s := by
  obtain ⟨-, -, rfl⟩ := (startImage_eq_ok_iff image data p s).1 h
  exact ⟨rfl, le_rfl, le_rfl, le_rfl⟩

/-- Settles O58: the quotients are the definitions' own, and `stalls` stays at most `executed` because a run starts with consistent
counters and every step keeps them so. -/
theorem reporterMetrics : Obligations.ReporterMetrics := by
  refine ⟨fun n c hc => if_neg hc, fun n => if_pos rfl, fun n st hn => if_neg hn, fun st => if_pos rfl, fun c st h => if_neg h,
    if_pos rfl, ?ipc, ?accuracy, ?speedup, fun image data p s t n hstart hrun => ?run⟩
  case ipc => norm_num [ipc]
  case accuracy => norm_num [accuracy]
  case speedup => norm_num [speedup]
  case run =>
    obtain ⟨-, hstalls, -⟩ : CountersConsistent t :=
      reachesIn_keeps stepKeepsCountersConsistent.1 hrun (countersConsistent_of_startImage hstart)
    exact ⟨hstalls, accuracy_nonneg hstalls⟩

end Sys2Proof.Machine
end

section
/-! PROOFS. Assembly in one traversal with back-patching (30_encoding.md rules R69 to R73): after any lines, the instructions emitted are
those lines' instructions with every operand that names a label defined so far resolved, and the pending list holds the other uses. -/

namespace Sys2Proof.Machine

/-! ## Label addresses and instruction lines, a line at a time -/

theorem instructionLines_append (ls ms : List Line) : instructionLines (ls ++ ms) = instructionLines ls ++ instructionLines ms := by
  induction ls with
  | nil => rfl
  | cons l ls ih => cases l with
    | label n => exact ih
    | instr d => exact congrArg (d :: ·) ih

theorem labelAddressFrom_append_label (name n : Text) (here : Nat) (ls : List Line) :
    labelAddressFrom name here (ls ++ [.label n]) =
      (labelAddressFrom name here ls).or (if n = name then some (here + (instructionLines ls).length) else none) := by
  induction ls generalizing here with
  | nil => simp [labelAddressFrom, instructionLines]
  | cons l ls ih =>
    cases l with
    | label n' =>
      simp only [List.cons_append, labelAddressFrom, instructionLines, ih]
      split <;> rfl
    | instr d =>
      simp only [List.cons_append, labelAddressFrom, instructionLines, ih, List.length_cons, Nat.add_assoc, Nat.add_comm 1]

theorem labelAddressFrom_append_instr (name : Text) (d : Draft) (here : Nat) (ls : List Line) :
    labelAddressFrom name here (ls ++ [.instr d]) = labelAddressFrom name here ls := by
  induction ls generalizing here with
  | nil => rfl
  | cons l ls ih => cases l with
    | label n =>
      simp only [List.cons_append, labelAddressFrom, ih]
    | instr d' => exact ih (here + 1)

/-! ## Resolving an operand -/

/-- The instruction at an address with the label it names resolved, where it names one that is defined (rule R70). -/
def Draft.resolved (labels : List (Text × Nat)) (address : Nat) (d : Draft) : Draft :=
  match d.label with
  | none => d
  | some name =>
    match findLabel name labels with
    | none => d
    | some target => { d with imm := displacement target address }

theorem Draft.resolved_of_none {d : Draft} (h : d.label = none) (labels : List (Text × Nat)) (k : Nat) :
    d.resolved labels k = d := by
  simp only [Draft.resolved, h]

theorem Draft.resolved_of_undefined {d : Draft} {name : Text} {labels : List (Text × Nat)} (h : d.label = some name)
    (hl : findLabel name labels = none) (k : Nat) : d.resolved labels k = d := by
  simp only [Draft.resolved, h, hl]

theorem Draft.resolved_of_defined {d : Draft} {name : Text} {labels : List (Text × Nat)} {target : Nat} (h : d.label = some name)
    (hl : findLabel name labels = some target) (k : Nat) :
    d.resolved labels k = { d with imm := displacement target k } := by
  simp only [Draft.resolved, h, hl]

/-- Patching changes the instructions at the pending addresses of the name, and gives each its own displacement. -/
theorem getElem?_patchPending (name : Text) (target : Nat) (pending : List (Text × Nat)) (emitted : List Draft) (k : Nat) :
    (patchPending name target pending emitted)[k]? =
      if (name, k) ∈ pending then emitted[k]?.map (fun d => { d with imm := displacement target k }) else emitted[k]? := by
  induction pending generalizing emitted with
  | nil => rfl
  | cons p pending ih =>
    obtain ⟨n, a⟩ := p
    rw [patchPending, ih]
    by_cases hn : n = name
    · subst hn
      rw [if_pos rfl, List.getElem?_modify]
      by_cases ha : a = k
      · subst ha
        cases emitted[a]? <;> simp
      · simp [ha, Ne.symm ha]
    · simp [hn, Ne.symm hn]

/-! ## The invariant of the traversal -/

/-- The line at an address names a label. -/
def UsesAt (ls : List Line) (name : Text) (k : Nat) : Prop := ∃ d, (instructionLines ls)[k]? = some d ∧ d.label = some name

/-- What the assembler's state is after some lines. -/
structure Assembled (ls : List Line) (st : AsmState) : Prop where
  fits : (instructionLines ls).length ≤ 256
  labels : ∀ name, findLabel name st.labels = labelAddressFrom name 0 ls
  emitted : st.emitted = (instructionLines ls).mapIdx (Draft.resolved st.labels)
  pending : ∀ name k, (name, k) ∈ st.pending ↔ UsesAt ls name k ∧ findLabel name st.labels = none

theorem findLabel_cons (name n : Text) (a : Nat) (labels : List (Text × Nat)) :
    findLabel name ((n, a) :: labels) = if n = name then some a else findLabel name labels := rfl

/-- A new label resolves the operands that name it, and no others. -/
theorem Draft.resolved_cons (n : Text) (a : Nat) (labels : List (Text × Nat)) (k : Nat) (d : Draft) :
    d.resolved ((n, a) :: labels) k =
      if d.label = some n then { d with imm := displacement a k } else d.resolved labels k := by
  cases hd : d.label with
  | none => rw [if_neg nofun, Draft.resolved_of_none hd, Draft.resolved_of_none hd]
  | some name =>
    by_cases hn : n = name
    · subst hn
      rw [if_pos rfl, Draft.resolved_of_defined hd ((findLabel_cons n n a labels).trans (if_pos rfl)), hd]
    · rw [if_neg (fun h => hn (Option.some.inj h).symm)]
      simp only [Draft.resolved, hd, findLabel_cons, if_neg hn]

theorem assembled_nil : Assembled [] { emitted := [], labels := [], pending := [] } where
  fits := Nat.zero_le _
  labels _ := rfl
  emitted := rfl
  pending _ _ := ⟨nofun, fun ⟨⟨_, hd, _⟩, _⟩ => nomatch hd⟩

/-! ## A label line -/

theorem instructionLines_append_label (ls : List Line) (n : Text) : instructionLines (ls ++ [.label n]) = instructionLines ls := by
  rw [instructionLines_append]
  exact List.append_nil _

theorem assembleLine_label {st st' : AsmState} {n : Text} (h : assembleLine st (.label n) = .ok st') :
    findLabel n st.labels = none ∧
      st' = { emitted := patchPending n st.emitted.length st.pending st.emitted
              labels := (n, st.emitted.length) :: st.labels
              pending := st.pending.filter (fun p => p.1 != n) } := by
  unfold assembleLine at h
  cases hn : findLabel n st.labels with
  | some a => simp only [hn, reduceCtorEq] at h
  | none =>
    simp only [hn, Except.ok.injEq] at h
    exact ⟨rfl, h.symm⟩

/-- A label's line patches the uses that waited for it: the others are resolved as before. -/
theorem patchPending_of_assembled {ls : List Line} {st : AsmState} (h : Assembled ls st) {n : Text}
    (hn : findLabel n st.labels = none) (target : Nat) :
    patchPending n target st.pending st.emitted =
      (instructionLines ls).mapIdx (Draft.resolved ((n, target) :: st.labels)) := by
  apply List.ext_getElem?
  intro k
  rw [getElem?_patchPending, h.emitted, List.getElem?_mapIdx, List.getElem?_mapIdx]
  cases hd : (instructionLines ls)[k]? with
  | none => exact ite_self _
  | some d =>
    have hpending : (n, k) ∈ st.pending ↔ d.label = some n := by
      rw [h.pending]
      exact ⟨fun ⟨⟨d', hd', hl⟩, _⟩ => Option.some.inj (hd.symm.trans hd') ▸ hl, fun hl => ⟨⟨d, hd, hl⟩, hn⟩⟩
    simp only [Option.map_some, Draft.resolved_cons, hpending]
    split
    · rename_i hl
      rw [Draft.resolved_of_undefined hl hn]
    · rfl

theorem assembled_label {ls : List Line} {st st' : AsmState} {n : Text} (h : Assembled ls st)
    (hline : assembleLine st (.label n) = .ok st') : Assembled (ls ++ [.label n]) st' := by
  obtain ⟨hn, rfl⟩ := assembleLine_label hline
  have hlength : st.emitted.length = (instructionLines ls).length := by rw [h.emitted, List.length_mapIdx]
  refine ⟨?fits, fun name => ?labels, ?emitted, fun name k => ?pending⟩
  case fits =>
    rw [instructionLines_append_label]
    exact h.fits
  case labels =>
    rw [findLabel_cons, labelAddressFrom_append_label, ← h.labels, hlength, Nat.zero_add]
    split
    · rename_i heq
      rw [← heq, hn]
      rfl
    · exact (Option.or_none ..).symm
  case emitted =>
    rw [instructionLines_append_label]
    exact patchPending_of_assembled h hn _
  case pending =>
    simp only [List.mem_filter, h.pending, UsesAt, instructionLines_append_label, findLabel_cons, bne_iff_ne]
    by_cases heq : n = name
    · simp [heq]
    · simp [heq, Ne.symm heq]

/-! ## An instruction line -/

theorem instructionLines_append_instr (ls : List Line) (d : Draft) :
    instructionLines (ls ++ [.instr d]) = instructionLines ls ++ [d] := instructionLines_append ls [.instr d]

theorem assembleLine_instr {st st' : AsmState} {d : Draft} (h : assembleLine st (.instr d) = .ok st') :
    st.emitted.length < 256 ∧ st'.labels = st.labels ∧
      st'.emitted = st.emitted ++ [d.resolved st.labels st.emitted.length] ∧
      ∀ name k, (name, k) ∈ st'.pending ↔
        (name, k) ∈ st.pending ∨ (k = st.emitted.length ∧ d.label = some name ∧ findLabel name st.labels = none) := by
  unfold assembleLine at h
  by_cases hfull : Config.codeWords ≤ st.emitted.length
  · simp only [if_pos hfull, reduceCtorEq] at h
  simp only [if_neg hfull] at h
  have hroom : st.emitted.length < 256 := Nat.lt_of_not_le hfull
  cases hd : d.label with
  | none =>
    simp only [hd, Except.ok.injEq] at h
    subst h
    exact ⟨hroom, rfl, by rw [Draft.resolved_of_none hd], fun name k => by simp⟩
  | some used =>
    cases hl : findLabel used st.labels with
    | some target =>
      simp only [hd, hl, Except.ok.injEq] at h
      subst h
      refine ⟨hroom, rfl, by rw [Draft.resolved_of_defined hd hl, hd], fun name k => (or_iff_left ?_).symm⟩
      rintro ⟨-, hname, hnone⟩
      rw [← Option.some.inj hname, hl] at hnone
      exact nomatch hnone
    | none =>
      simp only [hd, hl, Except.ok.injEq] at h
      subst h
      refine ⟨hroom, rfl, by rw [Draft.resolved_of_undefined hd hl], fun name k => ?_⟩
      rw [List.mem_append, List.mem_singleton, Prod.mk.injEq]
      refine or_congr_right ⟨?_, ?_⟩
      · rintro ⟨rfl, rfl⟩
        exact ⟨rfl, rfl, hl⟩
      · rintro ⟨hk, hname, -⟩
        exact ⟨(Option.some.inj hname).symm, hk⟩

theorem usesAt_append_instr (ls : List Line) (d : Draft) (name : Text) (k : Nat) :
    UsesAt (ls ++ [.instr d]) name k ↔ UsesAt ls name k ∨ (k = (instructionLines ls).length ∧ d.label = some name) := by
  simp only [UsesAt, instructionLines_append_instr]
  rcases Nat.lt_trichotomy k (instructionLines ls).length with hk | hk | hk
  · simp [List.getElem?_append_left hk, hk.ne]
  · simp [hk]
  · simp [List.getElem?_append_right hk.le, List.getElem?_eq_none hk.le, hk.ne', Nat.sub_ne_zero_of_lt hk]

theorem assembled_instr {ls : List Line} {st st' : AsmState} {d : Draft} (h : Assembled ls st)
    (hline : assembleLine st (.instr d) = .ok st') : Assembled (ls ++ [.instr d]) st' := by
  obtain ⟨hroom, hlabels, hemitted, hpending⟩ := assembleLine_instr hline
  have hlength : st.emitted.length = (instructionLines ls).length := by rw [h.emitted, List.length_mapIdx]
  rw [hlength] at hroom hemitted
  refine ⟨?fits, fun name => ?labels, ?emitted, fun name k => ?pending⟩
  case fits =>
    rw [instructionLines_append_instr, List.length_append]
    exact hroom
  case labels => rw [hlabels, labelAddressFrom_append_instr, h.labels]
  case emitted => rw [hemitted, h.emitted, hlabels, instructionLines_append_instr, List.mapIdx_concat]
  case pending =>
    rw [hpending, h.pending, hlabels, usesAt_append_instr, hlength, or_and_right, and_assoc]

/-! ## The whole text -/

theorem assembled_line {ls : List Line} {st st' : AsmState} {l : Line} (h : Assembled ls st)
    (hline : assembleLine st l = .ok st') : Assembled (ls ++ [l]) st' := by
  cases l with
  | label n => exact assembled_label h hline
  | instr d => exact assembled_instr h hline

/-- The traversal keeps the invariant, from any lines already assembled. -/
theorem assembled_from {before ls : List Line} {st st' : AsmState} (h : Assembled before st) (hrun : assembleFrom st ls = .ok st') :
    Assembled (before ++ ls) st' := by
  induction ls generalizing before st with
  | nil =>
    injection hrun with hst
    rw [List.append_nil, ← hst]
    exact h
  | cons l ls ih =>
    rw [assembleFrom] at hrun
    cases hline : assembleLine st l with
    | error e => simp only [hline, reduceCtorEq] at hrun
    | ok u =>
      simp only [hline] at hrun
      rw [List.append_cons]
      exact ih (assembled_line h hline) hrun

/-- An assembled text ends with no use pending, and its words are those of the instructions emitted. -/
theorem assembleLines_eq_ok {ls : List Line} {image : List Word} (h : assembleLines ls = .ok image) :
    ∃ st, Assembled ls st ∧ st.pending = [] ∧ image = st.emitted.map Draft.word := by
  unfold assembleLines at h
  cases hrun : assembleFrom { emitted := [], labels := [], pending := [] } ls with
  | error e => simp only [hrun, reduceCtorEq] at h
  | ok st =>
    cases hpending : st.pending with
    | cons p rest => simp only [hrun, hpending, reduceCtorEq] at h
    | nil =>
      simp only [hrun, hpending, Except.ok.injEq] at h
      exact ⟨st, assembled_from assembled_nil hrun, hpending, h.symm⟩

/-- Settles O59: with no use pending, every label named is defined, and the invariant's resolved instructions are the statement's. -/
theorem assembledLabelsResolve : Obligations.AssembledLabelsResolve := by
  intro ls image h
  obtain ⟨st, hst, hpending, rfl⟩ := assembleLines_eq_ok h
  rw [hst.emitted]
  refine ⟨?length, ?lines, fun k d hd => ?operand⟩
  case length =>
    rw [List.length_map, List.length_mapIdx]
    exact hst.fits
  case lines => rw [List.length_map, List.length_mapIdx]
  case operand =>
    rw [List.getElem?_map, List.getElem?_mapIdx, hd, Option.map_some, Option.map_some]
    refine ⟨fun hnone => by rw [Draft.resolved_of_none hnone], fun name hname => ?_⟩
    cases htarget : findLabel name st.labels with
    | none =>
      have hwaiting : (name, k) ∈ st.pending := (hst.pending name k).2 ⟨⟨d, hd, hname⟩, htarget⟩
      rw [hpending] at hwaiting
      exact nomatch hwaiting
    | some target =>
      rw [Draft.resolved_of_defined hname htarget]
      exact ⟨target, (hst.labels name).symm.trans htarget, rfl⟩

end Sys2Proof.Machine
end
